-- ==== Sys2Proof/Word.lean ====
section
/-! DEFINITION. The value types of the block: byte, 32-bit bus word, 4-byte schedule word, 16-byte block, key schedule
(00_scope.md R9, R10; 40_aes_functions.md R75, R79). -/

namespace Sys2Proof

/-- An unsigned 8-bit value, bit 7 most significant (R9). -/
abbrev Byte := BitVec 8

/-- A 32-bit bus word; `v[31:24]` is its most significant byte (R9). -/
abbrev Word := BitVec 32

/-- A key-schedule word: the byte sequence `(a0, a1, a2, a3)` (R75). -/
abbrev Quad := Vector Byte 4

/-- A block: the byte sequence `B[0] .. B[15]` (R10). -/
abbrev Block := Vector Byte 16

/-- A key schedule: the 11 round keys `RK[0] .. RK[10]` (R5, R79). -/
abbrev Schedule := Vector Block 11

/-- The block `0^128` of 16 zero bytes (R10). -/
def zeroBlock : Block := Vector.replicate 16 0

/-- The all-zero schedule word. -/
def zeroQuad : Quad := Vector.replicate 4 0

end Sys2Proof
end

