-- ==== Sys2Proof/Config.lean ====
section
/-! DEFINITION. The fixed parameters of 00_scope.md R5 and R6. The open parameters are not constants here: BASE and
NUM_INSTANCES are fields of the system of Machine/System.lean, so that a claim holds for every value of them, and
CMD_LATENCY has no part in a model without time (log entry 8). -/

namespace Sys2Proof.Config

/-- `BUS_WIDTH` in bytes: 32 bits (R6). -/
def busBytes : Nat := 4

/-- The size of the register window in bytes (R32). -/
def windowBytes : Nat := 64

/-- `MAX_INPUT_LEN`, the most bytes one MAC_INPUT takes (R6, R108). -/
def maxInputLen : Nat := 16

/-- `Nr`, what the round counters NR_C and NR_M hold once a schedule is loaded (R5, R78). -/
def numRounds : BitVec 4 := 10

end Sys2Proof.Config
end

