-- ==== Sys2Proof/Syntax.lean ====
section
/-! DEFINITION. The seven commands, one constructor per row of spec/opcode_table.json (30_encoding.md R53). -/

namespace Sys2Proof

/-- The commands a host starts by writing a command word to CMD (R53). -/
inductive Instr where
  /-- KEY_LOAD: expand KEY into the cipher key schedule (R86). -/
  | keyLoad
  /-- ENC: encrypt DATA in place (R87). -/
  | enc
  /-- DEC: decrypt DATA in place (R88). -/
  | dec
  /-- MAC_INIT: bind KEY to the MAC engine (R95). -/
  | macInit
  /-- MAC_INPUT: append the first `len` bytes of DATA to the MAC's byte stream (R96); `len` is the unsigned LEN field (R52). -/
  | macInput (len : Nat)
  /-- MAC_FINAL: write the tag to DATA (R97). -/
  | macFinal
  /-- MAC_RESET: start a new computation under the bound key (R98). -/
  | macReset
  deriving DecidableEq, Repr

end Sys2Proof
end

