-- ==== Sys2Proof/WellFormed.lean ====
section
/-! DEFINITION. Which commands have a command word: the byte count of MAC_INPUT fits the five bits of LEN
(30_encoding.md R51, R52). The commands without an operand are always well-formed. -/

namespace Sys2Proof

/-- The well-formedness of a command: LEN is in 0..31 (R52). Values 17..31 are well-formed; MAC_INPUT itself refuses them
with CAPACITY (R58, R96). -/
def Instr.wf : Instr → Bool
  | .keyLoad => true
  | .enc => true
  | .dec => true
  | .macInit => true
  | .macInput len => len < 32
  | .macFinal => true
  | .macReset => true

end Sys2Proof
end

