-- ==== Sys2Proof/Decode.lean ====
section
/-! DEFINITION. The decoder of the command word, total on all 32-bit words (30_encoding.md R50, R51, R53 to R58), the encoder
(R51, R53, R60), and the decoder as the opcode table numbers its bits. -/

namespace Sys2Proof

/-- Why a command word encodes no command. Each is the one verdict ILLEGAL of R58; the names say which clause rejects it. -/
inductive IllegalWord where
  /-- a bit of RSV is set (R55) -/
  | reservedBits
  /-- OP is 0x0 or 0x8..0xF (R56) -/
  | reservedOp
  /-- LEN is not 0 and OP is not 0x5 (R54) -/
  | lenNotZero
  deriving DecidableEq, Repr

/-- OP, bits [3:0] (R51). -/
def opField (w : Word) : BitVec 4 := w.extractLsb' 0 4

/-- LEN, bits [8:4] (R51). -/
def lenField (w : Word) : BitVec 5 := w.extractLsb' 4 5

/-- RSV, bits [31:9] (R51). -/
def rsvField (w : Word) : BitVec 23 := w.extractLsb' 9 23

/-- A command without a byte count: LEN must be 0 (R54). -/
def withoutLen (len : Nat) (i : Instr) : Except IllegalWord Instr :=
  if len = 0 then .ok i else .error .lenNotZero

/-- `Decode(w)` (R58), the clauses in the rule's order. -/
def decode (w : Word) : Except IllegalWord Instr :=
  if rsvField w ≠ 0 then .error .reservedBits
  else
    let len := (lenField w).toNat
    match (opField w).toNat with
    | 0x1 => withoutLen len .keyLoad
    | 0x2 => withoutLen len .enc
    | 0x3 => withoutLen len .dec
    | 0x4 => withoutLen len .macInit
    | 0x5 => .ok (.macInput len)
    | 0x6 => withoutLen len .macFinal
    | 0x7 => withoutLen len .macReset
    | _ => .error .reservedOp

/-- The OP value of a command (R53). -/
def opCode : Instr → BitVec 4
  | .keyLoad => 0x1
  | .enc => 0x2
  | .dec => 0x3
  | .macInit => 0x4
  | .macInput _ => 0x5
  | .macFinal => 0x6
  | .macReset => 0x7

/-- The LEN value of a command: its byte count, 0 where it has none (R51, R54). DESIGN CHOICE (log entry 23): a count above
31, which R60 leaves out and `Instr.wf` excludes, keeps its low five bits. -/
def lenCode : Instr → BitVec 5
  | .keyLoad => 0
  | .enc => 0
  | .dec => 0
  | .macInit => 0
  | .macInput len => BitVec.ofNat 5 len
  | .macFinal => 0
  | .macReset => 0

/-- The command word of a command: RSV = 0, LEN, OP, most significant first (R51, R53); for a MAC_INPUT count above 31 see
`lenCode` (log entry 23). -/
def encode (i : Instr) : Word := (0 : BitVec 23) ++ lenCode i ++ opCode i

/-- What the decoder reads from an instruction whose bits are `w`, bit 0 the least significant of the one 32-bit word
(R50). Bits from `nbits` up are 0. No command is longer than a word. -/
def decodeTableWord (nbits w : Nat) : Option Instr :=
  if nbits ≤ 32 then
    match decode (BitVec.ofNat 32 (w % 2 ^ nbits)) with
    | .ok i => some i
    | .error _ => none
  else none

end Sys2Proof
end

