-- ==== Sys2Proof/Machine/State.lean ====
section
/-! DEFINITION. The machine's state as plain data (10_state.md R13 to R31), the port it meets its host through, the reasons
a step can stop, and the state after reset (70_reset_and_hazards.md R126). -/

namespace Sys2Proof.Machine

/-- The values STATUS.ERR can take; 5, 6 and 7 are never produced (R19, R106). -/
inductive ErrCode where
  /-- 0: the most recent command succeeded, or none has run since reset -/
  | ok
  /-- 1: the command word is illegal (R107) -/
  | illegal
  /-- 2: MAC_INPUT with LEN above 16 (R108) -/
  | capacity
  /-- 3: MAC_INPUT or MAC_FINAL in Finalized (R109) -/
  | misuse
  /-- 4: a command that needs a key none has been loaded for (R110) -/
  | noKey
  deriving DecidableEq, Repr

/-- MSTATE, the lifecycle of the MAC engine (R22, R24). -/
inductive MacState where
  /-- 0: no MAC key bound since reset -/
  | unkeyed
  /-- 1: a key is bound and no byte has been fed -/
  | fresh
  /-- 2: at least one byte has been fed -/
  | accumulating
  /-- 3: the tag has been computed -/
  | finalized
  deriving DecidableEq, Repr

/-- The cipher context, which serves ENC and DEC (R23). -/
structure CipherContext where
  /-- RK_C -/
  rk : Schedule
  /-- NR_C -/
  nr : BitVec 4
  /-- CKEY_VALID -/
  valid : Bool
  deriving DecidableEq, Repr

/-- The MAC context, which serves the CMAC engine (R24). -/
structure MacContext where
  /-- RK_M -/
  rk : Schedule
  /-- NR_M -/
  nr : BitVec 4
  /-- the accumulator X -/
  x : Block
  /-- the last-block buffer BUF -/
  buf : Block
  /-- BLEN, a count always in 0..16 -/
  blen : Fin 17
  /-- MSTATE -/
  mstate : MacState
  deriving DecidableEq, Repr

/-- What a bus access does: read, or write a value (R38, R40). An access that is not 32 bits wide ends in a bus error, so
the value of a write is looked at only where it is a 32-bit word (R35). -/
inductive AccessKind where
  | read
  | write (value : Word)
  deriving DecidableEq, Repr

/-- One access to the register window as it reaches the bus port: who issues it (R47), its byte offset from BASE (R32), its
width in bytes (R35) and what it does. -/
structure Access where
  master : Nat
  offset : BitVec 6
  bytes : Nat
  kind : AccessKind
  deriving DecidableEq, Repr

/-- What the host can do to the block (R7, R144): an access, asserting the reset input (with the access, if any, that is in
progress at that moment, R130), and releasing it. -/
inductive HostAction where
  | access (a : Access)
  | resetAssert (inProgress : Option Access)
  | resetRelease
  deriving DecidableEq, Repr

/-- What a host sees of an access that completes: the value a read returns, nothing for a write (R8, R144). -/
structure Completion where
  master : Nat
  value : Option Word
  deriving DecidableEq, Repr

/-- The model's own fields for the host's side of the bus port (log entry 4): the actions still to reach the port, in the
order in which the port takes them (R44, R47), and what the completed accesses have returned, oldest first (R8). -/
structure Port where
  pending : List HostAction
  completed : List Completion
  deriving DecidableEq, Repr

/-- The state of one instance of the block, and of its port. CMD holds no value (R17), K1 and K2 are not kept (R104), and
the block has no other state (R31). -/
structure State where
  /-- KEY[0..15] (R15) -/
  key : Block
  /-- DATA[0..15] (R16) -/
  data : Block
  /-- STATUS.ERR (R19) -/
  err : ErrCode
  /-- STATUS.ESTICKY (R20) -/
  esticky : Bool
  /-- RK_C, NR_C, CKEY_VALID (R23) -/
  cipherCtx : CipherContext
  /-- RK_M, NR_M, X, BUF, BLEN, MSTATE (R24) -/
  macCtx : MacContext
  /-- the reset input is asserted (R125) -/
  inReset : Bool
  /-- the model's own: the host's side of the port -/
  port : Port
  deriving DecidableEq, Repr

/-- Why a step stops with a fault. A failed command is none of these: it is a next state with STATUS updated (R114, R118). -/
inductive Fault where
  /-- Raised by a bus access the block does not accept: a reserved offset, a width other than 32 bits, a misaligned offset
  (R34, R35, R36, R39). Safe: the run stops where a platform could go on. -/
  | busError
  /-- Raised by a bus access issued while reset is asserted: it gets no response, so the run is stuck (R130). Safe: no claim
  about such a run can be proved from a next state. -/
  | noResponseInReset
  deriving DecidableEq, Repr

/-- Why a step is refused. -/
inductive Refusal where
  /-- Raised by exec's arm for an instruction that has no meaning yet, by its mnemonic. Safe. No arm answers with it. -/
  | notModelled (mnemonic : String)
  deriving DecidableEq, Repr

/-- The cipher context at reset: CKEY_VALID = 0 (R126). DESIGN CHOICE (log entry 1): RK_C and NR_C, which R126 leaves
unspecified, are zero. -/
def CipherContext.reset : CipherContext where
  rk := Vector.replicate 11 zeroBlock
  nr := 0
  valid := false

/-- The MAC context at reset: MSTATE = Unkeyed (R126). DESIGN CHOICE (log entry 1): RK_M, NR_M, X, BUF and BLEN, which R126
leaves unspecified, are zero. -/
def MacContext.reset : MacContext where
  rk := Vector.replicate 11 zeroBlock
  nr := 0
  x := zeroBlock
  buf := zeroBlock
  blen := 0
  mstate := .unkeyed

/-- The machine right after reset, the reset input released, before any host action (R126, R128, R145). -/
def State.reset : State where
  key := zeroBlock
  data := zeroBlock
  err := .ok
  esticky := false
  cipherCtx := CipherContext.reset
  macCtx := MacContext.reset
  inReset := false
  port := { pending := [], completed := [] }

end Sys2Proof.Machine
end

