-- ==== Sys2Proof/Machine/Ops.lean ====
section
/-! DEFINITION. The named operations over the state: register updates, the success and the failure of a command (the block's
analogue of taking an exception, 60_exceptions.md R114, R115), hardware reset, the port. The block has no return from an
exception (R116), so none stands here. -/

namespace Sys2Proof.Machine

/-- KEY <- v (R15). -/
def State.setKey (s : State) (v : Block) : State := { s with key := v }

/-- DATA <- v (R16). -/
def State.setData (s : State) (v : Block) : State := { s with data := v }

/-- The cipher context <- c (R23). -/
def State.setCipherCtx (s : State) (c : CipherContext) : State := { s with cipherCtx := c }

/-- The MAC context <- m (R24). -/
def State.setMacCtx (s : State) (m : MacContext) : State := { s with macCtx := m }

/-- What a command that raises no error ends with: `ERR <- 0`, ESTICKY unchanged (R115). -/
def State.succeed (s : State) : State := { s with err := .ok }

/-- What a failed command does to the state: `ERR <- code; ESTICKY <- 1`, nothing else (R114). -/
def State.failWith (s : State) (code : ErrCode) : State := { s with err := code, esticky := true }

/-- `ESTICKY <- 0` (R20). -/
def State.clearSticky (s : State) : State := { s with esticky := false }

/-- `raise Error(code)`: the one way a command fails (R11, R114). The machine goes on, since the hardware defines the
outcome (R118). -/
def raiseError (code : ErrCode) (s : State) : Host.Outcome State Fault Refusal := .next (s.failWith code)

/-- The end of a command that succeeds, with the effects `s` already holds (R115). -/
def finish (s : State) : Host.Outcome State Fault Refusal := .next s.succeed

/-- The hardware reset: every piece of the block's state at its reset value (R125, R126, R130); `asserted` is the level of
the reset input afterwards. The host's side of the port is not the block's and stays. -/
def State.hardwareReset (s : State) (asserted : Bool) : State :=
  { State.reset with inReset := asserted, port := s.port }

/-- The actions still to reach the port. -/
def State.setPending (s : State) (l : List HostAction) : State := { s with port := { s.port with pending := l } }

/-- An access of `master` completes and returns `value` (R8). -/
def State.complete (s : State) (master : Nat) (value : Option Word) : State :=
  { s with port := { s.port with completed := s.port.completed ++ [{ master := master, value := value }] } }

end Sys2Proof.Machine
end

