-- ==== Sys2Proof/Machine/Operands.lean ====
section
/-! DEFINITION. Every operand form: the registers of the window and their offsets (20_memory.md R33), the packing of a
16-byte register's words (R37), and the byte operand of MAC_INPUT (42_cmac.md R96). -/

namespace Sys2Proof.Machine

/-- The accepted registers of the window (R33). -/
inductive Reg where
  | cmd
  | status
  /-- KEY0..KEY3 -/
  | key (j : Fin 4)
  /-- DATA0..DATA3 -/
  | data (j : Fin 4)
  deriving DecidableEq, Repr

/-- The offset of a register from BASE (R33). -/
def regOffset : Reg → BitVec 6
  | .cmd => 0x00
  | .status => 0x04
  | .key j => 0x10 + 4 * BitVec.ofNat 6 j.val
  | .data j => 0x20 + 4 * BitVec.ofNat 6 j.val

/-- The register at an offset; none where the offset is reserved or misaligned (R33, R34, R36). -/
def regAt (offset : BitVec 6) : Option Reg :=
  match offset.toNat with
  | 0x00 => some .cmd
  | 0x04 => some .status
  | 0x10 => some (.key 0)
  | 0x14 => some (.key 1)
  | 0x18 => some (.key 2)
  | 0x1C => some (.key 3)
  | 0x20 => some (.data 0)
  | 0x24 => some (.data 1)
  | 0x28 => some (.data 2)
  | 0x2C => some (.data 3)
  | _ => none

/-- The register an access reaches; none where the block does not accept the access (R35, R36, R39). -/
def acceptedReg (a : Access) : Option Reg :=
  if a.bytes = Config.busBytes then regAt a.offset else none

/-- Word `j` of a 16-byte register: `R[4j] || R[4j+1] || R[4j+2] || R[4j+3]`, the first in bits [31:24] (R37). -/
def getWord (r : Block) (j : Fin 4) : Word :=
  r[4 * j.val] ++ r[4 * j.val + 1] ++ r[4 * j.val + 2] ++ r[4 * j.val + 3]

/-- Byte `k` of a word, `k = 0` being bits [31:24] (R37, R40). -/
def wordByte (v : Word) (k : Fin 4) : Byte := v.extractLsb' (8 * (3 - k.val)) 8

/-- A 16-byte register with word `j` replaced by `v`, the other twelve bytes kept (R40). -/
def setWord (r : Block) (j : Fin 4) (v : Word) : Block :=
  Vector.ofFn fun i =>
    if i.val / 4 = j.val then wordByte v ⟨i.val % 4, by omega⟩ else r[i]

/-- The 16-byte register whose 32 hex digits are the value `v`, byte 0 first (R10). -/
def blockOfBits (v : BitVec 128) : Block :=
  Vector.ofFn fun i => v.extractLsb' (8 * (15 - i.val)) 8

/-- The byte operand of MAC_INPUT: `DATA[0 .. len-1]` in index order (R96). -/
def inputBytes (data : Block) (len : Nat) : List Byte := data.toList.take len

end Sys2Proof.Machine
end

