-- ==== Sys2Proof/Machine/Aes.lean ====
section
/-! DEFINITION. The AES-128 functions the commands call (40_aes_functions.md R62 to R84). All are pure and total (R12, R84).
The large ones are marked irreducible, so that a proof about a command does not unfold them by accident; `rw`, `simp` and the
kernel still do. -/

namespace Sys2Proof.Machine

/-- Bytewise exclusive-or (R10, R62, R75). -/
def xorBytes {n : Nat} (a b : Vector Byte n) : Vector Byte n := Vector.zipWith (· ^^^ ·) a b

/-- Multiplication by {02} modulo 0x11B (R63). -/
def xtime (b : Byte) : Byte := if b.getLsbD 7 then (b <<< 1) ^^^ 0x1B else b <<< 1

/-- The loop of `gmul` for the bits `i, i+1, ...` of `b`, `n` of them left to do (R63). -/
def gmulLoop : Nat → Nat → Byte → Byte → Byte → Byte
  | 0, _, _, _, r => r
  | n + 1, i, a, b, r => gmulLoop n (i + 1) (xtime a) b (if b.getLsbD i then r ^^^ a else r)

/-- Multiplication in GF(2^8) (R63). -/
@[irreducible] def gmul (a b : Byte) : Byte := gmulLoop 8 0 a b 0

/-- The multiplicative inverse: the byte `c` with `gmul(b, c) = 01`, and 00 for 00 (R64). -/
@[irreducible] def gfInv (b : Byte) : Byte :=
  (((List.range 256).map (BitVec.ofNat 8)).find? fun c => gmul b c == 1).getD 0

/-- Bit `i` of the affine map of R65 applied to `c`. -/
def affineBit (c : Byte) (i : Nat) : Bool :=
  (0x63 : Byte).getLsbD i ^^ c.getLsbD i ^^ c.getLsbD ((i + 4) % 8) ^^ c.getLsbD ((i + 5) % 8) ^^
    c.getLsbD ((i + 6) % 8) ^^ c.getLsbD ((i + 7) % 8)

/-- The affine map of the S-box, `SBOX[b] = Affine(inv(b))` (R65). -/
def affine (c : Byte) : Byte := BitVec.ofFnLE fun i : Fin 8 => affineBit c i.val

/-- The S-box table, row the high nibble and column the low nibble (R65). -/
def sboxRows : List (List Byte) := [
  [0x63, 0x7c, 0x77, 0x7b, 0xf2, 0x6b, 0x6f, 0xc5, 0x30, 0x01, 0x67, 0x2b, 0xfe, 0xd7, 0xab, 0x76],
  [0xca, 0x82, 0xc9, 0x7d, 0xfa, 0x59, 0x47, 0xf0, 0xad, 0xd4, 0xa2, 0xaf, 0x9c, 0xa4, 0x72, 0xc0],
  [0xb7, 0xfd, 0x93, 0x26, 0x36, 0x3f, 0xf7, 0xcc, 0x34, 0xa5, 0xe5, 0xf1, 0x71, 0xd8, 0x31, 0x15],
  [0x04, 0xc7, 0x23, 0xc3, 0x18, 0x96, 0x05, 0x9a, 0x07, 0x12, 0x80, 0xe2, 0xeb, 0x27, 0xb2, 0x75],
  [0x09, 0x83, 0x2c, 0x1a, 0x1b, 0x6e, 0x5a, 0xa0, 0x52, 0x3b, 0xd6, 0xb3, 0x29, 0xe3, 0x2f, 0x84],
  [0x53, 0xd1, 0x00, 0xed, 0x20, 0xfc, 0xb1, 0x5b, 0x6a, 0xcb, 0xbe, 0x39, 0x4a, 0x4c, 0x58, 0xcf],
  [0xd0, 0xef, 0xaa, 0xfb, 0x43, 0x4d, 0x33, 0x85, 0x45, 0xf9, 0x02, 0x7f, 0x50, 0x3c, 0x9f, 0xa8],
  [0x51, 0xa3, 0x40, 0x8f, 0x92, 0x9d, 0x38, 0xf5, 0xbc, 0xb6, 0xda, 0x21, 0x10, 0xff, 0xf3, 0xd2],
  [0xcd, 0x0c, 0x13, 0xec, 0x5f, 0x97, 0x44, 0x17, 0xc4, 0xa7, 0x7e, 0x3d, 0x64, 0x5d, 0x19, 0x73],
  [0x60, 0x81, 0x4f, 0xdc, 0x22, 0x2a, 0x90, 0x88, 0x46, 0xee, 0xb8, 0x14, 0xde, 0x5e, 0x0b, 0xdb],
  [0xe0, 0x32, 0x3a, 0x0a, 0x49, 0x06, 0x24, 0x5c, 0xc2, 0xd3, 0xac, 0x62, 0x91, 0x95, 0xe4, 0x79],
  [0xe7, 0xc8, 0x37, 0x6d, 0x8d, 0xd5, 0x4e, 0xa9, 0x6c, 0x56, 0xf4, 0xea, 0x65, 0x7a, 0xae, 0x08],
  [0xba, 0x78, 0x25, 0x2e, 0x1c, 0xa6, 0xb4, 0xc6, 0xe8, 0xdd, 0x74, 0x1f, 0x4b, 0xbd, 0x8b, 0x8a],
  [0x70, 0x3e, 0xb5, 0x66, 0x48, 0x03, 0xf6, 0x0e, 0x61, 0x35, 0x57, 0xb9, 0x86, 0xc1, 0x1d, 0x9e],
  [0xe1, 0xf8, 0x98, 0x11, 0x69, 0xd9, 0x8e, 0x94, 0x9b, 0x1e, 0x87, 0xe9, 0xce, 0x55, 0x28, 0xdf],
  [0x8c, 0xa1, 0x89, 0x0d, 0xbf, 0xe6, 0x42, 0x68, 0x41, 0x99, 0x2d, 0x0f, 0xb0, 0x54, 0xbb, 0x16]]

/-- The inverse S-box table (R66). -/
def invSboxRows : List (List Byte) := [
  [0x52, 0x09, 0x6a, 0xd5, 0x30, 0x36, 0xa5, 0x38, 0xbf, 0x40, 0xa3, 0x9e, 0x81, 0xf3, 0xd7, 0xfb],
  [0x7c, 0xe3, 0x39, 0x82, 0x9b, 0x2f, 0xff, 0x87, 0x34, 0x8e, 0x43, 0x44, 0xc4, 0xde, 0xe9, 0xcb],
  [0x54, 0x7b, 0x94, 0x32, 0xa6, 0xc2, 0x23, 0x3d, 0xee, 0x4c, 0x95, 0x0b, 0x42, 0xfa, 0xc3, 0x4e],
  [0x08, 0x2e, 0xa1, 0x66, 0x28, 0xd9, 0x24, 0xb2, 0x76, 0x5b, 0xa2, 0x49, 0x6d, 0x8b, 0xd1, 0x25],
  [0x72, 0xf8, 0xf6, 0x64, 0x86, 0x68, 0x98, 0x16, 0xd4, 0xa4, 0x5c, 0xcc, 0x5d, 0x65, 0xb6, 0x92],
  [0x6c, 0x70, 0x48, 0x50, 0xfd, 0xed, 0xb9, 0xda, 0x5e, 0x15, 0x46, 0x57, 0xa7, 0x8d, 0x9d, 0x84],
  [0x90, 0xd8, 0xab, 0x00, 0x8c, 0xbc, 0xd3, 0x0a, 0xf7, 0xe4, 0x58, 0x05, 0xb8, 0xb3, 0x45, 0x06],
  [0xd0, 0x2c, 0x1e, 0x8f, 0xca, 0x3f, 0x0f, 0x02, 0xc1, 0xaf, 0xbd, 0x03, 0x01, 0x13, 0x8a, 0x6b],
  [0x3a, 0x91, 0x11, 0x41, 0x4f, 0x67, 0xdc, 0xea, 0x97, 0xf2, 0xcf, 0xce, 0xf0, 0xb4, 0xe6, 0x73],
  [0x96, 0xac, 0x74, 0x22, 0xe7, 0xad, 0x35, 0x85, 0xe2, 0xf9, 0x37, 0xe8, 0x1c, 0x75, 0xdf, 0x6e],
  [0x47, 0xf1, 0x1a, 0x71, 0x1d, 0x29, 0xc5, 0x89, 0x6f, 0xb7, 0x62, 0x0e, 0xaa, 0x18, 0xbe, 0x1b],
  [0xfc, 0x56, 0x3e, 0x4b, 0xc6, 0xd2, 0x79, 0x20, 0x9a, 0xdb, 0xc0, 0xfe, 0x78, 0xcd, 0x5a, 0xf4],
  [0x1f, 0xdd, 0xa8, 0x33, 0x88, 0x07, 0xc7, 0x31, 0xb1, 0x12, 0x10, 0x59, 0x27, 0x80, 0xec, 0x5f],
  [0x60, 0x51, 0x7f, 0xa9, 0x19, 0xb5, 0x4a, 0x0d, 0x2d, 0xe5, 0x7a, 0x9f, 0x93, 0xc9, 0x9c, 0xef],
  [0xa0, 0xe0, 0x3b, 0x4d, 0xae, 0x2a, 0xf5, 0xb0, 0xc8, 0xeb, 0xbb, 0x3c, 0x83, 0x53, 0x99, 0x61],
  [0x17, 0x2b, 0x04, 0x7e, 0xba, 0x77, 0xd6, 0x26, 0xe1, 0x69, 0x14, 0x63, 0x55, 0x21, 0x0c, 0x7d]]

/-- The entry of a 16 by 16 table for a byte: row its high nibble, column its low nibble (R65). -/
def tableEntry (rows : List (List Byte)) (b : Byte) : Byte :=
  (rows.getD (b.toNat / 16) []).getD (b.toNat % 16) 0

/-- `SBOX[b]` (R65). -/
@[irreducible] def sbox (b : Byte) : Byte := tableEntry sboxRows b

/-- `INV_SBOX[b]` (R66). -/
@[irreducible] def invSbox (b : Byte) : Byte := tableEntry invSboxRows b

/-- `s[r][c]` of the state a block holds: byte `r + 4c` (R67). -/
def cell (B : Block) (r c : Fin 4) : Byte := B[r.val + 4 * c.val]

/-- The block of the state whose entry `s[r][c]` is `f r c` (R67). -/
def ofCells (f : Fin 4 → Fin 4 → Byte) : Block :=
  Vector.ofFn fun i => f ⟨i.val % 4, by omega⟩ ⟨i.val / 4, by omega⟩

/-- Column `c` of the state a block holds: bytes `B[4c .. 4c+3]` (R67). -/
def column (B : Block) (c : Fin 4) : Quad := #v[cell B 0 c, cell B 1 c, cell B 2 c, cell B 3 c]

/-- The block of the state whose column `c` is `f c` (R67). -/
def ofColumns (f : Fin 4 → Quad) : Block := ofCells fun r c => (f c)[r]

/-- SubBytes (R68). -/
def subBytes (B : Block) : Block := B.map sbox

/-- InvSubBytes (R73). -/
def invSubBytes (B : Block) : Block := B.map invSbox

/-- ShiftRows: `s'[r][c] = s[r][(c + r) mod 4]` (R69). -/
def shiftRows (B : Block) : Block := ofCells fun r c => cell B r (c + r)

/-- InvShiftRows: `s'[r][c] = s[r][(c - r) mod 4]` (R72). -/
def invShiftRows (B : Block) : Block := ofCells fun r c => cell B r (c - r)

/-- MixColumns on one column (R70). -/
def mixColumn (s : Quad) : Quad :=
  #v[gmul 0x02 s[0] ^^^ gmul 0x03 s[1] ^^^ s[2] ^^^ s[3],
     s[0] ^^^ gmul 0x02 s[1] ^^^ gmul 0x03 s[2] ^^^ s[3],
     s[0] ^^^ s[1] ^^^ gmul 0x02 s[2] ^^^ gmul 0x03 s[3],
     gmul 0x03 s[0] ^^^ s[1] ^^^ s[2] ^^^ gmul 0x02 s[3]]

/-- InvMixColumns on one column (R74). -/
def invMixColumn (s : Quad) : Quad :=
  #v[gmul 0x0e s[0] ^^^ gmul 0x0b s[1] ^^^ gmul 0x0d s[2] ^^^ gmul 0x09 s[3],
     gmul 0x09 s[0] ^^^ gmul 0x0e s[1] ^^^ gmul 0x0b s[2] ^^^ gmul 0x0d s[3],
     gmul 0x0d s[0] ^^^ gmul 0x09 s[1] ^^^ gmul 0x0e s[2] ^^^ gmul 0x0b s[3],
     gmul 0x0b s[0] ^^^ gmul 0x0d s[1] ^^^ gmul 0x09 s[2] ^^^ gmul 0x0e s[3]]

/-- MixColumns (R70). -/
def mixColumns (B : Block) : Block := ofColumns fun c => mixColumn (column B c)

/-- InvMixColumns (R74). -/
def invMixColumns (B : Block) : Block := ofColumns fun c => invMixColumn (column B c)

/-- AddRoundKey, on blocks `B ^ RK` (R71). -/
def addRoundKey (B rk : Block) : Block := xorBytes B rk

/-- RotWord (R75). -/
def rotWord (w : Quad) : Quad := #v[w[1], w[2], w[3], w[0]]

/-- SubWord (R75). -/
def subWord (w : Quad) : Quad := w.map sbox

/-- `rc[i]`: `rc[1] = 01`, `rc[i] = xtime(rc[i-1])` (R76). R76 defines it for 1..10; no rule reads `rc[0]`. -/
def rc : Nat → Byte
  | 0 => 0
  | 1 => 0x01
  | n + 2 => xtime (rc (n + 1))

/-- `Rcon[i] = (rc[i], 00, 00, 00)` (R76). -/
def rcon (i : Nat) : Quad := #v[rc i, 0, 0, 0]

/-- The word `temp` that is added to `w[i-4]`, from `prev = w[i-1]` (R77). -/
def scheduleTemp (i : Nat) (prev : Quad) : Quad :=
  if i % 4 = 0 then xorBytes (subWord (rotWord prev)) (rcon (i / 4)) else prev

/-- One turn of the loop of KeyExpansion: `w[i] <- w[i-4] ^ temp`, on the list of the words so far (R77). -/
def expandStep (ws : List Quad) (i : Nat) : List Quad :=
  ws ++ [xorBytes (ws.getD (i - 4) zeroQuad) (scheduleTemp i (ws.getD (i - 1) zeroQuad))]

/-- The words `w[0..3]`: the key itself (R77). -/
def keyWords (K : Block) : List Quad := [column K 0, column K 1, column K 2, column K 3]

/-- The 44 words `w[0..43]` (R77). -/
def expandWords (K : Block) : List Quad := (List.range' 4 40).foldl expandStep (keyWords K)

/-- The block `w[4j] || w[4j+1] || w[4j+2] || w[4j+3]` (R79). -/
def roundKey (ws : List Quad) (j : Nat) : Block := ofColumns fun k => ws.getD (4 * j + k.val) zeroQuad

/-- `KeyExpansion(K)` (R77, R79). -/
@[irreducible] def keyExpansion (K : Block) : Schedule :=
  let ws := expandWords K
  Vector.ofFn fun j => roundKey ws j.val

/-- Rounds 1..9 of Cipher (R81). -/
def cipherRound (rk : Schedule) (s : Block) (round : Fin 11) : Block :=
  addRoundKey (mixColumns (shiftRows (subBytes s))) rk[round]

/-- `Cipher(RK, in)` (R81; 90_conflicts.md C5). -/
@[irreducible] def cipher (rk : Schedule) (b : Block) : Block :=
  let s := ([1, 2, 3, 4, 5, 6, 7, 8, 9] : List (Fin 11)).foldl (cipherRound rk) (addRoundKey b rk[0])
  addRoundKey (shiftRows (subBytes s)) rk[10]

/-- Rounds 9 down to 1 of InvCipher (R82). -/
def invCipherRound (rk : Schedule) (s : Block) (round : Fin 11) : Block :=
  invMixColumns (addRoundKey (invSubBytes (invShiftRows s)) rk[round])

/-- `InvCipher(RK, in)` (R82). -/
@[irreducible] def invCipher (rk : Schedule) (b : Block) : Block :=
  let s := ([9, 8, 7, 6, 5, 4, 3, 2, 1] : List (Fin 11)).foldl (invCipherRound rk) (addRoundKey b rk[10])
  addRoundKey (invSubBytes (invShiftRows s)) rk[0]

end Sys2Proof.Machine
end

