-- ==== Sys2Proof/Machine/Flags.lean ====
section
/-! DEFINITION. STATUS: the encodings of its fields, the word a read returns and the effect of a host write
(10_state.md R18 to R22, 20_memory.md R38, R40). The block has no other flags (R31). -/

namespace Sys2Proof.Machine

/-- STATUS.ERR (R106). -/
def errBits : ErrCode → BitVec 3
  | .ok => 0
  | .illegal => 1
  | .capacity => 2
  | .misuse => 3
  | .noKey => 4

/-- STATUS.MSTATE (R22). -/
def mstateBits : MacState → BitVec 2
  | .unkeyed => 0
  | .fresh => 1
  | .accumulating => 2
  | .finalized => 3

/-- The STATUS word: `zext_32(MSTATE || CKEY_VALID || ESTICKY || ERR)` (R18, R38). -/
def statusWord (s : State) : Word :=
  (mstateBits s.macCtx.mstate ++ BitVec.ofBool s.cipherCtx.valid ++ BitVec.ofBool s.esticky ++ errBits s.err).setWidth 32

/-- A host write of `v` to STATUS: `if v[3] = 1 then ESTICKY <- 0`; no other field changes (R20). -/
def writeStatus (v : Word) (s : State) : State :=
  if v.getLsbD 3 then s.clearSticky else s

end Sys2Proof.Machine
end

