-- ==== Sys2Proof/Machine/CipherCommands.lean ====
section
/-! DEFINITION. The cipher commands KEY_LOAD, ENC and DEC (41_cipher.md R85 to R88). -/

namespace Sys2Proof.Machine

/-- KEY_LOAD: `RK_C <- KeyExpansion(KEY); NR_C <- 10; CKEY_VALID <- 1; ERR <- 0` (R86). -/
def execKeyLoad (s : State) : Host.Outcome State Fault Refusal :=
  finish (s.setCipherCtx { rk := keyExpansion s.key, nr := Config.numRounds, valid := true })

/-- ENC: `DATA <- Cipher(RK_C, DATA)`, or NOKEY (R87). -/
def execEnc (s : State) : Host.Outcome State Fault Refusal :=
  if s.cipherCtx.valid then finish (s.setData (cipher s.cipherCtx.rk s.data)) else raiseError .noKey s

/-- DEC: `DATA <- InvCipher(RK_C, DATA)`, or NOKEY (R88). -/
def execDec (s : State) : Host.Outcome State Fault Refusal :=
  if s.cipherCtx.valid then finish (s.setData (invCipher s.cipherCtx.rk s.data)) else raiseError .noKey s

end Sys2Proof.Machine
end

