-- ==== Sys2Proof/Machine/Cmac.lean ====
section
/-! DEFINITION. The CMAC engine's functions and its byte step (42_cmac.md R89 to R94). -/

namespace Sys2Proof.Machine

/-- The block read as a 128-bit number, `B[0]` most significant (R89). -/
def bitsOfBlock (B : Block) : BitVec 128 :=
  B[0] ++ B[1] ++ B[2] ++ B[3] ++ B[4] ++ B[5] ++ B[6] ++ B[7] ++
    B[8] ++ B[9] ++ B[10] ++ B[11] ++ B[12] ++ B[13] ++ B[14] ++ B[15]

/-- `Dbl(B)`, doubling in GF(2^128) (R89). -/
def dbl (B : Block) : Block :=
  let v := bitsOfBlock B
  blockOfBits (if v.getLsbD 127 then (v <<< 1) ^^^ 0x87 else v <<< 1)

/-- L of `Subkeys(RK)` (R90). -/
def subkeyL (rk : Schedule) : Block := cipher rk zeroBlock

/-- K1 of `Subkeys(RK)` (R90). -/
def subkey1 (rk : Schedule) : Block := dbl (subkeyL rk)

/-- K2 of `Subkeys(RK)` (R90). -/
def subkey2 (rk : Schedule) : Block := dbl (subkey1 rk)

/-- `Pad(B, n)`, for `n` in 0..15 (R91). -/
def pad (B : Block) (n : Nat) : Block :=
  Vector.ofFn fun i => if i.val < n then B[i] else if i.val = n then 0x80 else 0x00

/-- The first half of `Absorb`: chain-encrypt a full buffered block, since more data is arriving (R92). -/
def chainIfFull (m : MacContext) : MacContext :=
  if m.blen = 16 then { m with x := cipher m.rk (xorBytes m.x m.buf), blen := 0 } else m

/-- The second half of `Absorb`: `BUF[BLEN] <- b; BLEN <- BLEN + 1` (R92). It runs after `chainIfFull`, when BLEN is below
16; the other case is never reached. -/
def putByte (m : MacContext) (b : Byte) : MacContext :=
  if h : m.blen.val < 16 then
    { m with buf := m.buf.set m.blen.val b h, blen := ⟨m.blen.val + 1, by omega⟩ }
  else m

/-- `Absorb(b)`: append one byte to the MAC's byte stream (R92). -/
def absorb (m : MacContext) (b : Byte) : MacContext := putByte (chainIfFull m) b

/-- `Absorb` for each byte of a sequence, in order (R96). -/
def absorbAll (m : MacContext) (bytes : List Byte) : MacContext := bytes.foldl absorb m

/-- `LastBlock(K1, K2)` (R93). -/
def lastBlock (m : MacContext) : Block :=
  if m.blen = 16 then xorBytes m.buf (subkey1 m.rk) else xorBytes (pad m.buf m.blen.val) (subkey2 m.rk)

/-- The tag of the byte stream absorbed so far (R94). -/
def tag (m : MacContext) : Block := cipher m.rk (xorBytes m.x (lastBlock m))

/-- What MAC_RESET and MAC_INIT do to the MAC computation, the schedule kept: `X, BUF <- 0^128; BLEN <- 0; MSTATE <- Fresh`
(R95, R98). -/
def restartMac (m : MacContext) : MacContext :=
  { m with x := zeroBlock, buf := zeroBlock, blen := 0, mstate := .fresh }

end Sys2Proof.Machine
end

