-- ==== Sys2Proof/Machine/MacCommands.lean ====
section
/-! DEFINITION. The MAC commands MAC_INIT, MAC_INPUT, MAC_FINAL and MAC_RESET (42_cmac.md R95 to R98). Their checks stand in
the order of 60_exceptions.md R112. -/

namespace Sys2Proof.Machine

/-- MAC_INIT: bind KEY and start an empty computation (R95). -/
def execMacInit (s : State) : Host.Outcome State Fault Refusal :=
  finish (s.setMacCtx (restartMac { s.macCtx with rk := keyExpansion s.key, nr := Config.numRounds }))

/-- MAC_INPUT: absorb `DATA[0 .. len-1]`, or CAPACITY, NOKEY or MISUSE (R96). -/
def execMacInput (len : Nat) (s : State) : Host.Outcome State Fault Refusal :=
  if len > Config.maxInputLen then raiseError .capacity s
  else if s.macCtx.mstate = .unkeyed then raiseError .noKey s
  else if s.macCtx.mstate = .finalized then raiseError .misuse s
  else
    let m := absorbAll s.macCtx (inputBytes s.data len)
    finish (s.setMacCtx (if len > 0 then { m with mstate := .accumulating } else m))

/-- MAC_FINAL: write the tag to DATA, or NOKEY or MISUSE (R97). -/
def execMacFinal (s : State) : Host.Outcome State Fault Refusal :=
  if s.macCtx.mstate = .unkeyed then raiseError .noKey s
  else if s.macCtx.mstate = .finalized then raiseError .misuse s
  else finish ((s.setData (tag s.macCtx)).setMacCtx { s.macCtx with mstate := .finalized })

/-- MAC_RESET: start an empty computation under the bound key, or NOKEY (R98). -/
def execMacReset (s : State) : Host.Outcome State Fault Refusal :=
  if s.macCtx.mstate = .unkeyed then raiseError .noKey s
  else finish (s.setMacCtx (restartMac s.macCtx))

end Sys2Proof.Machine
end

