-- ==== Sys2Proof/Machine/Dispatch.lean ====
section
/-! DEFINITION. The dispatch of a decoded command to its meaning (30_encoding.md R58). -/

namespace Sys2Proof.Machine

def exec (i : Instr) (s : State) : Host.Outcome State Fault Refusal :=
  match i with
  | .keyLoad => Sys2Proof.Machine.execKeyLoad s
  | .enc => Sys2Proof.Machine.execEnc s
  | .dec => Sys2Proof.Machine.execDec s
  | .macInit => Sys2Proof.Machine.execMacInit s
  | .macInput len => Sys2Proof.Machine.execMacInput len s
  | .macFinal => Sys2Proof.Machine.execMacFinal s
  | .macReset => Sys2Proof.Machine.execMacReset s

end Sys2Proof.Machine
end

