-- ==== Sys2Proof/Machine/Bus.lean ====
section
/-! DEFINITION. The bus port: a write to CMD, reads and writes of the window, accesses, and the host's actions
(20_memory.md R33 to R44; 70_reset_and_hazards.md R125, R130). -/

namespace Sys2Proof.Machine

/-- `Command(w)`: decode the word and run the command to completion, or fail with ILLEGAL (R41, R58, R107). -/
def command (w : Word) (s : State) : Host.Outcome State Fault Refusal :=
  match decode w with
  | .ok i => exec i s
  | .error _ => raiseError .illegal s

/-- `MemRead` of a register: CMD and KEY read as 0, STATUS as its word, DATA as its bytes (R38). -/
def readReg : Reg → State → Word
  | .cmd, _ => 0
  | .status, s => statusWord s
  | .key _, _ => 0
  | .data j, s => getWord s.data j

/-- `MemWrite` of a register (R40). -/
def writeReg (r : Reg) (v : Word) (s : State) : Host.Outcome State Fault Refusal :=
  match r with
  | .cmd => command v s
  | .status => .next (writeStatus v s)
  | .key j => .next (s.setKey (setWord s.key j v))
  | .data j => .next (s.setData (setWord s.data j v))

/-- The outcome of a write whose access then completes on the bus: the effect stands before the completion (R41). -/
def completeWrite (master : Nat) : Host.Outcome State Fault Refusal → Host.Outcome State Fault Refusal
  | .next s => .next (s.complete master none)
  | .fault f => .fault f
  | .refused r => .refused r

/-- An access to an accepted register: it completes, and a read returns its value (R38, R40). -/
def accessReg (r : Reg) (a : Access) (s : State) : Host.Outcome State Fault Refusal :=
  match a.kind with
  | .read => .next (s.complete a.master (some (readReg r s)))
  | .write v => completeWrite a.master (writeReg r v s)

/-- One access at the port: no response while reset is asserted (R130), a bus error where the block does not accept it
(R39), its effect otherwise. It is indivisible (R43). -/
def busAccess (a : Access) (s : State) : Host.Outcome State Fault Refusal :=
  if s.inReset then .fault .noResponseInReset
  else
    match acceptedReg a with
    | none => .fault .busError
    | some r => accessReg r a s

/-- One action of the host. Asserting reset abandons the access in progress, which has no effect and never completes
(R130); on release every piece of state has its reset value (R125). Releasing an input that is not asserted does nothing. -/
def hostAction (h : HostAction) (s : State) : Host.Outcome State Fault Refusal :=
  match h with
  | .access a => busAccess a s
  | .resetAssert _ => .next (s.hardwareReset true)
  | .resetRelease => .next (if s.inReset then s.hardwareReset false else s)

/-- The 32-bit write of a command word to CMD by master 0 (R50, R59). -/
def cmdWrite (w : Word) : HostAction :=
  .access { master := 0, offset := regOffset .cmd, bytes := Config.busBytes, kind := .write w }

end Sys2Proof.Machine
end

