-- ==== Sys2Proof/Machine/Step.lean ====
section
/-! DEFINITION. One step of the machine: the port takes the host's next action (20_memory.md R44). The block itself has no
step: with no action pending it is idle (00_scope.md R7, 70_reset_and_hazards.md R128). -/

namespace Sys2Proof.Machine

/-- One step: the first pending action takes full effect (R44); an idle block stays as it is (R128). -/
def step (s : State) : Host.Outcome State Fault Refusal :=
  match s.port.pending with
  | [] => .next s
  | h :: rest => hostAction h (s.setPending rest)

/-- The state with the command word `w` as the host's next action: a write to CMD that the next step takes, the reset input
released. The block fetches nothing (R46); the command word is the data of the CMD write (log entry 5). -/
def State.withFetchWord (s : State) (nbits w : Nat) : State :=
  { s with
    inReset := false
    port := { s.port with pending := cmdWrite (BitVec.ofNat 32 (w % 2 ^ nbits)) :: s.port.pending } }

end Sys2Proof.Machine
end

