-- ==== Sys2Proof/Machine/HostProgram.lean ====
section
/-! DEFINITION. Host programs: the actions and pseudo-instructions of 30_encoding.md R59 and R60, their expansion into what
the host does at the port, and the feeding of a byte stream in chunks (R61). -/

namespace Sys2Proof.Machine

/-- The actions of R59 and the pseudo-instructions of R60. -/
inductive HostLine where
  /-- `WR <reg>, value` -/
  | wr (r : Reg) (v : Word)
  /-- `RD <reg>` -/
  | rd (r : Reg)
  /-- `RST` -/
  | rst
  /-- `CMD <command>` -/
  | cmd (i : Instr)
  /-- `CMD RAW value` -/
  | cmdRaw (w : Word)
  /-- `WRKEY <32 hex>` -/
  | wrKey (b : Block)
  /-- `WRDATA <32 hex>` -/
  | wrData (b : Block)
  /-- `RDDATA` -/
  | rdData
  /-- `CLRERR` -/
  | clrErr
  deriving DecidableEq, Repr

/-- `MemWrite(BASE + offset(reg), 4, value)` by a master (R59). -/
def writeAction (master : Nat) (r : Reg) (v : Word) : HostAction :=
  .access { master := master, offset := regOffset r, bytes := Config.busBytes, kind := .write v }

/-- `MemRead(BASE + offset(reg), 4)` by a master (R59). -/
def readAction (master : Nat) (r : Reg) : HostAction :=
  .access { master := master, offset := regOffset r, bytes := Config.busBytes, kind := .read }

/-- The exact expansion of a line into host actions (R59, R60). RST asserts and releases the reset input. DESIGN CHOICE (log
entry 23): R60 gives CMD MAC_INPUT n for n in 0..31 only; a larger n writes the word of n mod 32. -/
def expandLine (master : Nat) : HostLine → List HostAction
  | .wr r v => [writeAction master r v]
  | .rd r => [readAction master r]
  | .rst => [.resetAssert none, .resetRelease]
  | .cmd i => [writeAction master .cmd (encode i)]
  | .cmdRaw w => [writeAction master .cmd w]
  | .wrKey b => ([0, 1, 2, 3] : List (Fin 4)).map fun j => writeAction master (.key j) (getWord b j)
  | .wrData b => ([0, 1, 2, 3] : List (Fin 4)).map fun j => writeAction master (.data j) (getWord b j)
  | .rdData => ([0, 1, 2, 3] : List (Fin 4)).map fun j => readAction master (.data j)
  | .clrErr => [writeAction master .status 0x00000008]

/-- The host actions of a program, a sequence of lines (R59, R143). -/
def expandProgram (master : Nat) (lines : List HostLine) : List HostAction := lines.flatMap (expandLine master)

/-- A run of a finite list of host actions from a state, each taking full effect before the next (R44, R143). -/
def runActions : List HostAction → State → Host.Outcome State Fault Refusal
  | [], s => .next s
  | h :: rest, s =>
    match hostAction h s with
    | .next t => runActions rest t
    | .fault f => .fault f
    | .refused r => .refused r

/-- DATA with a chunk in its first bytes; the bytes after the chunk may hold anything, here what `d` holds (R61). -/
def loadChunk (chunk : List Byte) (d : Block) : Block := Vector.ofFn fun i => chunk.getD i.val d[i]

/-- Feeding one chunk: the chunk in DATA, then MAC_INPUT with the chunk's length (R61, R99). -/
def feedChunk (chunk : List Byte) (s : State) : Host.Outcome State Fault Refusal :=
  exec (.macInput chunk.length) (s.setData (loadChunk chunk s.data))

/-- Feeding a byte stream that is split into chunks, in order (R61, R99). -/
def feedChunks : List (List Byte) → State → Host.Outcome State Fault Refusal
  | [], s => .next s
  | c :: rest, s =>
    match feedChunk c s with
    | .next t => feedChunks rest t
    | .fault f => .fault f
    | .refused r => .refused r

end Sys2Proof.Machine
end

