-- ==== Sys2Proof/Machine/System.lean ====
section
/-! DEFINITION. A system of instances of the block (20_memory.md R47, R48; NUM_INSTANCES and BASE of 00_scope.md R6). The
number of instances and each BASE are arbitrary, so a claim about a system holds for every choice of them. -/

namespace Sys2Proof.Machine

/-- One instance of the block and the byte address BASE of its window on the host bus (R32, R48). -/
structure Instance where
  base : Nat
  block : State
  deriving DecidableEq, Repr

/-- A system of NUM_INSTANCES copies of the block (R6, R48). -/
abbrev System := List Instance

/-- The address lies in the window `BASE .. BASE+63` (R32). -/
def inWindow (addr base : Nat) : Bool := base ≤ addr && addr < base + Config.windowBytes

/-- A system as R6 allows it: at least one instance, each BASE a multiple of 64, no two alike. -/
def systemWf (sys : System) : Bool :=
  !sys.isEmpty && sys.all (fun m => m.base % Config.windowBytes == 0) && decide (sys.map Instance.base).Nodup

/-- The access of R38 and R40 at a byte address of the window of `base`: its offset is the distance from BASE (R32). -/
def windowAccess (base addr master bytes : Nat) (kind : AccessKind) : Access :=
  { master := master, offset := BitVec.ofNat 6 (addr - base), bytes := bytes, kind := kind }

/-- One access on the host bus, by the byte address it starts at: the instance whose window holds the address takes it
(R32). An access outside every window reaches no instance (R34). -/
def systemAccess (addr master bytes : Nat) (kind : AccessKind) : System → Host.Outcome System Fault Refusal
  | [] => .next []
  | m :: rest =>
    if inWindow addr m.base then
      match busAccess (windowAccess m.base addr master bytes kind) m.block with
      | .next b => .next ({ m with block := b } :: rest)
      | .fault f => .fault f
      | .refused r => .refused r
    else
      match systemAccess addr master bytes kind rest with
      | .next rest' => .next (m :: rest')
      | .fault f => .fault f
      | .refused r => .refused r

/-- The order in which two masters' accesses reach one port: any order that keeps each master's own (R47). -/
inductive Interleaves {α : Type} : List α → List α → List α → Prop where
  | nil : Interleaves [] [] []
  | left {xs ys zs : List α} (x : α) : Interleaves xs ys zs → Interleaves (x :: xs) ys (x :: zs)
  | right {xs ys zs : List α} (y : α) : Interleaves xs ys zs → Interleaves xs (y :: ys) (y :: zs)

end Sys2Proof.Machine
end

