-- ==== Sys2Proof/Safety.lean ====
section
/-! DEFINITION. What claims are stated with: the outcomes of a step as data, the invariant of the machine, what two states
have in common that a host cannot tell apart, a run without a failed command, and the reference functions (the polynomial
product, the CBC chain, one-shot AES-CMAC) that the block's functions are compared with. -/

namespace Sys2Proof.Machine

/-- The next state of an outcome, if it has one. -/
def outcomeState {σ φ ρ : Type} : Host.Outcome σ φ ρ → Option σ
  | .next s => some s
  | .fault _ => none
  | .refused _ => none

/-- The fault of an outcome, if it is one. -/
def outcomeFault {σ φ ρ : Type} : Host.Outcome σ φ ρ → Option φ
  | .next _ => none
  | .fault f => some f
  | .refused _ => none

/-- No command has failed since ESTICKY was last cleared (R115, R118). -/
def NoCommandFailed (s : State) : Prop := s.esticky = false

/-- A run of host actions is final and ends in `t`: every action has been executed and none of them ended in a bus error or
got no response (R143). -/
def FinalRun (actions : List HostAction) (s t : State) : Prop := runActions actions s = .next t

/-- The first check of a command that applies, in the order of R112; OK where none does. -/
def firstError (i : Instr) (s : State) : ErrCode :=
  match i with
  | .keyLoad => .ok
  | .enc => if s.cipherCtx.valid then .ok else .noKey
  | .dec => if s.cipherCtx.valid then .ok else .noKey
  | .macInit => .ok
  | .macInput len =>
    if 16 < len then .capacity
    else
      match s.macCtx.mstate with
      | .unkeyed => .noKey
      | .fresh => .ok
      | .accumulating => .ok
      | .finalized => .misuse
  | .macFinal =>
    match s.macCtx.mstate with
    | .unkeyed => .noKey
    | .fresh => .ok
    | .accumulating => .ok
    | .finalized => .misuse
  | .macReset => if s.macCtx.mstate = .unkeyed then .noKey else .ok

/-! ### The invariant -/

/-- A loaded schedule is the expansion of some key, and its round counter is 10 (R23, R24, R78). -/
def ScheduleLoaded (rk : Schedule) (nr : BitVec 4) : Prop := nr = 10 ∧ ∃ K : Block, rk = keyExpansion K

/-- What holds of the cipher context (R23). -/
def CipherInv (c : CipherContext) : Prop := c.valid = true → ScheduleLoaded c.rk c.nr

/-- What holds of the MAC context (R24, R28): a loaded schedule outside Unkeyed; `BLEN = 0` and `X = 0^128` in Fresh; BLEN in
1..16 in Accumulating. -/
def MacInv (m : MacContext) : Prop :=
  (m.mstate ≠ .unkeyed → ScheduleLoaded m.rk m.nr) ∧
    (m.mstate = .fresh → m.blen = 0 ∧ m.x = zeroBlock) ∧
    (m.mstate = .accumulating → 1 ≤ m.blen.val ∧ m.blen.val ≤ 16)

/-- The values R126 gives the state it specifies. -/
def HoldsResetValues (s : State) : Prop :=
  s.key = zeroBlock ∧ s.data = zeroBlock ∧ s.err = .ok ∧ s.esticky = false ∧ s.cipherCtx.valid = false ∧
    s.macCtx.mstate = .unkeyed

/-- The invariant of the machine: both contexts are sound, and while reset is asserted the state holds its reset values (R125). -/
def Inv (s : State) : Prop :=
  CipherInv s.cipherCtx ∧ MacInv s.macCtx ∧ (s.inReset = true → HoldsResetValues s)

/-! ### What a host cannot tell apart -/

/-- Two MAC contexts agree in what some rule can still read: MSTATE; the schedule once a key is bound; X, BLEN and
`BUF[0 .. BLEN-1]` while a computation runs (R29, R127; in Finalized no rule reads X, BUF or BLEN, R97). -/
def MacAlike (m n : MacContext) : Prop :=
  m.mstate = n.mstate ∧ (m.mstate ≠ .unkeyed → m.rk = n.rk) ∧
    (m.mstate = .fresh ∨ m.mstate = .accumulating →
      m.x = n.x ∧ m.blen = n.blen ∧ ∀ i : Fin 16, i.val < m.blen.val → m.buf[i] = n.buf[i])

/-- Two cipher contexts agree in what some rule can still read: CKEY_VALID, and the schedule once a key is loaded (R127). -/
def CipherAlike (c d : CipherContext) : Prop := c.valid = d.valid ∧ (c.valid = true → c.rk = d.rk)

/-- Two states differ at most in what R30, R29 and R127 call unobservable. -/
def Indistinguishable (s t : State) : Prop :=
  s.key = t.key ∧ s.data = t.data ∧ s.err = t.err ∧ s.esticky = t.esticky ∧ CipherAlike s.cipherCtx t.cipherCtx ∧
    MacAlike s.macCtx t.macCtx ∧ s.inReset = t.inReset ∧ s.port = t.port

/-- Two outcomes are alike: next states that are, or the same fault, or the same refusal. -/
def OutcomesAlike (o p : Host.Outcome State Fault Refusal) : Prop :=
  match o, p with
  | .next s, .next t => Indistinguishable s t
  | .fault f, .fault g => f = g
  | .refused r, .refused q => r = q
  | _, _ => False

/-! ### Reference functions -/

/-- The product of two polynomials over GF(2), not reduced: bit `k` is the coefficient of `x^k` (R62, R63). -/
def polyMul (a b : Byte) : BitVec 16 :=
  (List.range 8).foldl (fun acc i => if b.getLsbD i then acc ^^^ (a.setWidth 16 <<< i) else acc) 0

/-- The remainder of a polynomial modulo 0x11B, by long division from `x^15` down (R63). -/
def polyMod (v : BitVec 16) : Byte :=
  (([7, 6, 5, 4, 3, 2, 1, 0] : List Nat).foldl
    (fun acc i => if acc.getLsbD (i + 8) then acc ^^^ (0x11B <<< i) else acc) v).setWidth 8

/-- Word `w[i]` of a key schedule: bytes `4(i mod 4) ..` of round key `i div 4` (R79). -/
def scheduleWord (rk : Schedule) (i : Fin 44) : Quad :=
  Vector.ofFn fun k => rk[i.val / 4][4 * (i.val % 4) + k.val]

/-- The `i`-th 16-byte block of a byte stream, with 00 beyond its end (R100). -/
def streamBlock (m : List Byte) (i : Nat) : Block := Vector.ofFn fun k => m.getD (16 * i + k.val) 0

/-- `C_i` of R100: the CBC chain of the first `i` blocks of the stream with a zero start value. -/
def cbcChain (rk : Schedule) (m : List Byte) : Nat → Block
  | 0 => zeroBlock
  | i + 1 => cipher rk (xorBytes (cbcChain rk m i) (streamBlock m i))

/-- The number of blocks chained before the last one: `(n - 1) div 16`, and 0 for the empty stream (R100). -/
def chainedBlocks (m : List Byte) : Nat := (m.length - 1) / 16

/-- AES-CMAC of a whole byte stream in one go (RFC 4493 as R90 to R94 and R102 give it). -/
def aesCmac (K : Block) (m : List Byte) : Block :=
  let rk := keyExpansion K
  let q := chainedBlocks m
  let k1 := dbl (cipher rk zeroBlock)
  let last :=
    if m.length % 16 = 0 ∧ 0 < m.length then xorBytes (streamBlock m q) k1
    else xorBytes (pad (streamBlock m q) (m.length % 16)) (dbl k1)
  cipher rk (xorBytes (cbcChain rk m q) last)

end Sys2Proof.Machine
end

