-- ==== Sys2Proof/Certificates/Slice0/Obligations.lean ====
section
/-! DEFINITION. The statements for the provers. Each docstring names the rule of spec/ it formalises. A statement about an
instruction's result is an equation whose right side is the whole next state, so it says the frame as well. -/

open Sys2Proof Sys2Proof.Machine

/-! ## Encoding -/

/-- Decoding the word of a well-formed command gives the command back, whatever its byte count (R51, R53). -/
def Obligations.DecodeEncodeRoundTrip : Prop := ∀ i : Instr, i.wf = true → decode (encode i) = .ok i

/-- A word that decodes to a command is that command's word, so no two words mean the same command (R57). -/
def Obligations.DecodedWordIsItsEncoding : Prop :=
  ∀ (w : Word) (i : Instr), decode w = .ok i → i.wf = true ∧ encode i = w

/-- R58, R54, R55: a word is illegal exactly when RSV is not 0, OP is reserved, or LEN is not 0 with an OP other than 0x5;
a legal word gives the command of its OP and LEN; a write to CMD runs that command or fails with ILLEGAL. -/
def Obligations.DecodeFollowsFields : Prop :=
  ∀ w : Word,
    ((∃ e, decode w = .error e) ↔
      w.extractLsb' 9 23 ≠ 0 ∨ w.extractLsb' 0 4 = 0 ∨ 8 ≤ (w.extractLsb' 0 4).toNat ∨
        (w.extractLsb' 0 4 ≠ 5 ∧ w.extractLsb' 4 5 ≠ 0)) ∧
    (∀ i, decode w = .ok i → opCode i = w.extractLsb' 0 4 ∧ lenCode i = w.extractLsb' 4 5) ∧
    (∀ i s, decode w = .ok i → command w s = exec i s) ∧
    (∀ e s, decode w = .error e → command w s = .next { s with err := .illegal, esticky := true })

/-- R57: exactly 38 words have a legal format; 32 of them are MAC_INPUT's, 17 in range and 15 that fail with CAPACITY in
every state; each of the six other commands has one; every other word fails with ILLEGAL. -/
def Obligations.LegalWordCounts : Prop :=
  (∃ legal : List Word, legal.Nodup ∧ legal.length = 38 ∧ (∀ w, w ∈ legal ↔ ∃ i, decode w = .ok i)) ∧
    (∃ inRange : List Word, inRange.Nodup ∧ inRange.length = 17 ∧
      ∀ w, w ∈ inRange ↔ ∃ len, len ≤ 16 ∧ decode w = .ok (.macInput len)) ∧
    (∃ tooLong : List Word, tooLong.Nodup ∧ tooLong.length = 15 ∧
      (∀ w, w ∈ tooLong ↔ ∃ len, 16 < len ∧ decode w = .ok (.macInput len)) ∧
      ∀ w ∈ tooLong, ∀ s, command w s = .next { s with err := .capacity, esticky := true }) ∧
    (∀ i ∈ ([.keyLoad, .enc, .dec, .macInit, .macFinal, .macReset] : List Instr), ∃ w, ∀ v, decode v = .ok i ↔ v = w) ∧
    (∀ w, (¬∃ i, decode w = .ok i) → ∀ s, command w s = .next { s with err := .illegal, esticky := true })

/-- Words written out from R53 decode to the commands they stand for. -/
def Obligations.SampleWordsDecode : Prop :=
  decode 0x00000001 = .ok .keyLoad ∧ decode 0x00000003 = .ok .dec ∧ decode 0x00000105 = .ok (.macInput 16) ∧
    decode 0x00000045 = .ok (.macInput 4) ∧ decode 0x00000007 = .ok .macReset

/-! ## The step and the bus port -/

/-- R41, R44: when the host's next action is a write to CMD of a word that decodes to a command, the step is the execution
of that command, followed by the completion of the write on the bus. -/
def Obligations.StepRunsDecodedCommand : Prop :=
  ∀ (s : State) (m : Nat) (w : Word) (i : Instr) (rest : List HostAction),
    s.inReset = false → decode w = .ok i →
    s.port.pending = .access { master := m, offset := 0x00, bytes := 4, kind := .write w } :: rest →
    step s = completeWrite m (exec i { s with port := { s.port with pending := rest } })

/-- R107, R114, R117: when the word is illegal, the step is a next state in which only STATUS has changed: ERR is ILLEGAL and
ESTICKY is 1. The write itself completes on the bus. -/
def Obligations.StepOnIllegalWord : Prop :=
  ∀ (s : State) (m : Nat) (w : Word) (e : IllegalWord) (rest : List HostAction),
    s.inReset = false → decode w = .error e →
    s.port.pending = .access { master := m, offset := 0x00, bytes := 4, kind := .write w } :: rest →
    step s = .next { s with
      err := .illegal
      esticky := true
      port := { pending := rest, completed := s.port.completed ++ [{ master := m, value := none }] } }

/-- R128, R7: with no host action pending the block is idle and nothing changes. That the host's actions stand in a queue of
the port is the model's choice (log entry 4). -/
def Obligations.IdleBlockKeepsItsState : Prop := ∀ s : State, s.port.pending = [] → step s = .next s

/-- R34, R35, R36, R39: with reset released, an access ends in a bus error exactly when it is not 32 bits wide, its offset is
misaligned, or its offset is reserved; any other access completes. -/
def Obligations.BusErrorsExactly : Prop :=
  ∀ (a : Access) (s : State), s.inReset = false →
    (busAccess a s = .fault .busError ↔
      a.bytes ≠ 4 ∨ a.offset.toNat % 4 ≠ 0 ∨ a.offset = 0x08 ∨ a.offset = 0x0C ∨ 0x30 ≤ a.offset.toNat) ∧
    (busAccess a s ≠ .fault .busError → ∃ t, busAccess a s = .next t)

/-- R38: what a 32-bit read returns at each accepted offset; it has no side effect, so the state afterwards is the state
before with the read's completion recorded at the port. -/
def Obligations.ReadsReturnRegisterValues : Prop :=
  ∀ (m : Nat) (s : State), s.inReset = false →
    let reads (offset : BitVec 6) (v : Word) : Prop :=
      busAccess { master := m, offset := offset, bytes := 4, kind := .read } s =
        .next { s with port := { s.port with completed := s.port.completed ++ [{ master := m, value := some v }] } }
    reads 0x00 0x00000000 ∧
      reads 0x04 ((mstateBits s.macCtx.mstate ++ BitVec.ofBool s.cipherCtx.valid ++ BitVec.ofBool s.esticky ++
        errBits s.err).setWidth 32) ∧
      ∀ j : Fin 4,
        reads (BitVec.ofNat 6 (0x10 + 4 * j.val)) 0x00000000 ∧
          reads (BitVec.ofNat 6 (0x20 + 4 * j.val))
            (s.data[4 * j.val] ++ s.data[4 * j.val + 1] ++ s.data[4 * j.val + 2] ++ s.data[4 * j.val + 3])

/-- R40: what a 32-bit write does at each accepted offset: CMD runs the command, STATUS clears ESTICKY if bit 3 is set, KEY
and DATA words replace exactly the four bytes they name. -/
def Obligations.WritesReplaceNamedBytes : Prop :=
  ∀ (m : Nat) (v : Word) (s : State), s.inReset = false →
    let writes (offset : BitVec 6) : Host.Outcome State Fault Refusal :=
      busAccess { master := m, offset := offset, bytes := 4, kind := .write v } s
    let done : Port := { s.port with completed := s.port.completed ++ [{ master := m, value := none }] }
    writes 0x00 = completeWrite m (command v s) ∧
      writes 0x04 = .next { s with esticky := if v.getLsbD 3 then false else s.esticky, port := done } ∧
      ∀ j : Fin 4,
        (∃ key : Block, writes (BitVec.ofNat 6 (0x10 + 4 * j.val)) = .next { s with key := key, port := done } ∧
          ∀ i : Fin 16, key[i] =
            if i.val / 4 = j.val then v.extractLsb' (24 - 8 * (i.val % 4)) 8 else s.key[i]) ∧
        (∃ data : Block, writes (BitVec.ofNat 6 (0x20 + 4 * j.val)) = .next { s with data := data, port := done } ∧
          ∀ i : Fin 16, data[i] =
            if i.val / 4 = j.val then v.extractLsb' (24 - 8 * (i.val % 4)) 8 else s.data[i])

/-- R37, R44: a DATA word reads as the value last written to it, the other DATA words read as before, and a KEY word reads
as 0 whatever was written. -/
def Obligations.WordReadsBackAsWritten : Prop :=
  ∀ (v : Word) (j k : Fin 4) (s t u : State),
    writeReg (.data j) v s = .next t → writeReg (.key j) v s = .next u →
    readReg (.data k) t = (if k = j then v else readReg (.data k) s) ∧ readReg (.key k) u = 0 ∧
      readReg (.data k) u = readReg (.data k) s

/-- R42: a write to KEY, DATA or STATUS is idempotent: writing the same value again changes nothing. -/
def Obligations.RegisterWritesIdempotent : Prop :=
  ∀ (r : Reg) (v : Word) (s : State), r ≠ .cmd →
    ∃ t, writeReg r v s = .next t ∧ writeReg r v t = .next t

/-- R18, R19: the fields of the STATUS word, the reserved bits [31:7] reading 0, ERR at most 4; a host write can change no
field but ESTICKY. -/
def Obligations.StatusWordFields : Prop :=
  ∀ s : State,
    (statusWord s).extractLsb' 0 3 = errBits s.err ∧ ((statusWord s).extractLsb' 0 3).toNat ≤ 4 ∧
      (statusWord s).getLsbD 3 = s.esticky ∧ (statusWord s).getLsbD 4 = s.cipherCtx.valid ∧
      (statusWord s).extractLsb' 5 2 = mstateBits s.macCtx.mstate ∧ (statusWord s).extractLsb' 7 25 = 0 ∧
      ∀ v : Word, ∃ b : Bool, writeReg .status v s = .next { s with esticky := b } ∧
        b = if v.getLsbD 3 then false else s.esticky

/-- R20: every failed command sets ESTICKY; only a host write to STATUS with bit 3 set, and reset, clear it; a successful
command and a write with bit 3 clear leave it unchanged. -/
def Obligations.StickyBitSetAndCleared : Prop :=
  (∀ i s t, exec i s = .next t → (t.err ≠ .ok → t.esticky = true) ∧ (t.err = .ok → t.esticky = s.esticky)) ∧
    (∀ w s t, command w s = .next t → (t.err ≠ .ok → t.esticky = true) ∧ (t.err = .ok → t.esticky = s.esticky)) ∧
    (∀ s t, step s = .next t → s.esticky = true → t.esticky = false →
      ∃ h rest, s.port.pending = h :: rest ∧
        ((∃ m v, h = .access { master := m, offset := 0x04, bytes := 4, kind := .write v } ∧ v.getLsbD 3 = true) ∨
          (∃ p, h = .resetAssert p) ∨ h = .resetRelease)) ∧
    (∀ v s, writeReg .status v s =
      .next (if v.getLsbD 3 then { s with esticky := false } else s))

/-- R23, R25, R41: in any step, the cipher context and the MAC context change only where the host's action is an accepted
write to CMD of a legal word, or a reset action. -/
def Obligations.OnlyCommandsAndResetChangeContexts : Prop :=
  ∀ s t, step s = .next t → (t.cipherCtx ≠ s.cipherCtx ∨ t.macCtx ≠ s.macCtx) →
    ∃ h rest, s.port.pending = h :: rest ∧
      ((∃ m w i, h = .access { master := m, offset := 0x00, bytes := 4, kind := .write w } ∧ decode w = .ok i) ∨
        (∃ p, h = .resetAssert p) ∨ h = .resetRelease)

/-- R8, R30: what a read returns depends on DATA and on the STATUS word alone: no schedule, accumulator, buffer or KEY byte
reaches it. -/
def Obligations.ReadsRevealDataAndStatusOnly : Prop :=
  ∀ (r : Reg) (s t : State), s.data = t.data → statusWord s = statusWord t → readReg r s = readReg r t

/-! ## Errors -/

/-- R114, R115: every command, and every word written to CMD, answers a next state; if it fails, nothing but ERR and ESTICKY
has changed, and ESTICKY is 1; if it succeeds, ERR is 0 and ESTICKY is as before. -/
def Obligations.FailureChangesOnlyStatus : Prop :=
  (∀ (i : Instr) (s : State), ∃ t, exec i s = .next t ∧
    (t.err ≠ .ok → t = { s with err := t.err, esticky := true }) ∧ (t.err = .ok → t.esticky = s.esticky)) ∧
    ∀ (w : Word) (s : State), ∃ t, command w s = .next t ∧
      (t.err ≠ .ok → t = { s with err := t.err, esticky := true }) ∧ (t.err = .ok → t.esticky = s.esticky)

/-- R112, R113: the error a command reports is the first of its checks that applies, in the order of the table; with none,
it succeeds. A word that is illegal reports ILLEGAL in every state. -/
def Obligations.ChecksFollowTheTable : Prop :=
  ∀ (w : Word) (s : State), ∃ t, command w s = .next t ∧
    t.err = match decode w with
      | .ok i => firstError i s
      | .error _ => .illegal

/-- R108, R109, R110: which commands raise CAPACITY, MISUSE and NOKEY, and exactly when; a command that raises CAPACITY
absorbs no byte. -/
def Obligations.ErrorCausesExact : Prop :=
  ∀ (i : Instr) (s t : State), exec i s = .next t →
    (t.err = .capacity ↔ ∃ len, i = .macInput len ∧ 16 < len) ∧
      (t.err = .capacity → t.macCtx = s.macCtx) ∧
      (t.err = .misuse ↔
        s.macCtx.mstate = .finalized ∧ (i = .macFinal ∨ ∃ len, i = .macInput len ∧ len ≤ 16)) ∧
      (t.err = .noKey ↔
        (s.cipherCtx.valid = false ∧ (i = .enc ∨ i = .dec)) ∨
          (s.macCtx.mstate = .unkeyed ∧ (i = .macFinal ∨ i = .macReset ∨ ∃ len, i = .macInput len ∧ len ≤ 16))) ∧
      t.err ≠ .illegal

/-- R27: MSTATE changes only as the table says: the next MSTATE for every command in every state, with the error the table
names where the command fails, and Unkeyed when reset is asserted. No other event changes it. R125 fixes the values only on
release: that MSTATE is Unkeyed already while the reset input is asserted is the model's reading (log entry 3, DEDUCED). -/
def Obligations.MacStateFollowsTheTable : Prop :=
  (∀ (i : Instr) (s t : State), exec i s = .next t →
    t.macCtx.mstate =
      match i, s.macCtx.mstate with
      | .macInit, _ => .fresh
      | .macInput len, .fresh => if len = 0 ∨ 16 < len then .fresh else .accumulating
      | .macFinal, .fresh => .finalized
      | .macFinal, .accumulating => .finalized
      | .macReset, .fresh => .fresh
      | .macReset, .accumulating => .fresh
      | .macReset, .finalized => .fresh
      | _, m => m) ∧
    (∀ (i : Instr) (s t : State), exec i s = .next t → (i = .macInit ∨ (∃ len, i = .macInput len) ∨ i = .macFinal ∨
        i = .macReset) →
      t.err =
        match i, s.macCtx.mstate with
        | .macInput len, .unkeyed => if 16 < len then .capacity else .noKey
        | .macInput len, .finalized => if 16 < len then .capacity else .misuse
        | .macInput len, _ => if 16 < len then .capacity else .ok
        | .macFinal, .unkeyed => .noKey
        | .macFinal, .finalized => .misuse
        | .macReset, .unkeyed => .noKey
        | _, _ => .ok) ∧
    (∀ p s t, hostAction (.resetAssert p) s = .next t → t.macCtx.mstate = .unkeyed) ∧
    (∀ s t, step s = .next t → t.macCtx.mstate ≠ s.macCtx.mstate →
      ∃ h rest, s.port.pending = h :: rest ∧
        ((∃ m w i, h = .access { master := m, offset := 0x00, bytes := 4, kind := .write w } ∧ decode w = .ok i) ∨
          (∃ p, h = .resetAssert p) ∨ h = .resetRelease))

/-! ## The cipher commands -/

/-- R86: the only word of KEY_LOAD, and its whole effect, in every state. -/
def Obligations.KeyLoadLoadsTheSchedule : Prop :=
  (∀ w, decode w = .ok .keyLoad ↔ w = 0x00000001) ∧
    ∀ s : State, exec .keyLoad s =
      .next { s with cipherCtx := { rk := keyExpansion s.key, nr := 10, valid := true }, err := .ok }

/-- R87: the only word of ENC; DATA is encrypted in place under the loaded schedule; without one, NOKEY. -/
def Obligations.EncEncryptsDataInPlace : Prop :=
  (∀ w, decode w = .ok .enc ↔ w = 0x00000002) ∧
    ∀ s : State,
      (s.cipherCtx.valid = true →
        exec .enc s = .next { s with data := cipher s.cipherCtx.rk s.data, err := .ok }) ∧
      (s.cipherCtx.valid = false → exec .enc s = .next { s with err := .noKey, esticky := true })

/-- R88: the only word of DEC; DATA is decrypted in place under the same schedule; without one, NOKEY. -/
def Obligations.DecDecryptsDataInPlace : Prop :=
  (∀ w, decode w = .ok .dec ↔ w = 0x00000003) ∧
    ∀ s : State,
      (s.cipherCtx.valid = true →
        exec .dec s = .next { s with data := invCipher s.cipherCtx.rk s.data, err := .ok }) ∧
      (s.cipherCtx.valid = false → exec .dec s = .next { s with err := .noKey, esticky := true })

/-- R83, R87, R88: ENC followed by DEC under one schedule restores DATA, and so does DEC followed by ENC. -/
def Obligations.EncThenDecRestoresData : Prop :=
  ∀ (s : State), s.cipherCtx.valid = true →
    (∃ t, exec .enc s = .next t ∧ exec .dec t = .next { s with err := .ok }) ∧
      (∃ t, exec .dec s = .next t ∧ exec .enc t = .next { s with err := .ok })

/-! ## The MAC commands -/

/-- R95: the only word of MAC_INIT, and its whole effect, in every MSTATE. -/
def Obligations.MacInitBindsTheKey : Prop :=
  (∀ w, decode w = .ok .macInit ↔ w = 0x00000004) ∧
    ∀ s : State, exec .macInit s =
      .next { s with
        macCtx :=
          { rk := keyExpansion s.key, nr := 10, x := zeroBlock, buf := zeroBlock, blen := 0, mstate := .fresh }
        err := .ok }

/-- R96: the words of MAC_INPUT, and its effect: in Fresh and Accumulating the first LEN bytes of DATA are absorbed in order
and MSTATE becomes Accumulating if there are any; over 16 CAPACITY, in Unkeyed NOKEY, in Finalized MISUSE, in the order of
the checks. -/
def Obligations.MacInputAbsorbsData : Prop :=
  (∀ len w, len < 32 → (decode w = .ok (.macInput len) ↔ w = BitVec.ofNat 32 (16 * len + 5))) ∧
    ∀ (len : Nat) (s : State),
      (len ≤ 16 → (s.macCtx.mstate = .fresh ∨ s.macCtx.mstate = .accumulating) →
        exec (.macInput len) s =
          .next { s with
            macCtx :=
              { (s.data.toList.take len).foldl absorb s.macCtx with
                mstate := if len = 0 then s.macCtx.mstate else .accumulating }
            err := .ok }) ∧
      (16 < len → exec (.macInput len) s = .next { s with err := .capacity, esticky := true }) ∧
      (len ≤ 16 → s.macCtx.mstate = .unkeyed →
        exec (.macInput len) s = .next { s with err := .noKey, esticky := true }) ∧
      (len ≤ 16 → s.macCtx.mstate = .finalized →
        exec (.macInput len) s = .next { s with err := .misuse, esticky := true })

/-- R97, R90, R93, R94: the only word of MAC_FINAL, and its effect: in Fresh and Accumulating DATA becomes the tag and MSTATE
Finalized, the rest of the MAC context unchanged; in Unkeyed NOKEY, in Finalized MISUSE. -/
def Obligations.MacFinalWritesTheTag : Prop :=
  (∀ w, decode w = .ok .macFinal ↔ w = 0x00000006) ∧
    ∀ s : State,
      let m := s.macCtx
      let k1 := dbl (cipher m.rk zeroBlock)
      let k2 := dbl k1
      let last := if m.blen.val = 16 then xorBytes m.buf k1 else xorBytes (pad m.buf m.blen.val) k2
      (m.mstate = .fresh ∨ m.mstate = .accumulating →
        exec .macFinal s =
          .next { s with
            data := cipher m.rk (xorBytes m.x last)
            macCtx := { m with mstate := .finalized }
            err := .ok }) ∧
      (m.mstate = .unkeyed → exec .macFinal s = .next { s with err := .noKey, esticky := true }) ∧
      (m.mstate = .finalized → exec .macFinal s = .next { s with err := .misuse, esticky := true })

/-- R98: the only word of MAC_RESET, and its effect: an empty computation under the bound key; in Unkeyed NOKEY. -/
def Obligations.MacResetKeepsTheKey : Prop :=
  (∀ w, decode w = .ok .macReset ↔ w = 0x00000007) ∧
    ∀ s : State,
      (s.macCtx.mstate ≠ .unkeyed →
        exec .macReset s =
          .next { s with
            macCtx := { s.macCtx with x := zeroBlock, buf := zeroBlock, blen := 0, mstate := .fresh }
            err := .ok }) ∧
      (s.macCtx.mstate = .unkeyed → exec .macReset s = .next { s with err := .noKey, esticky := true })

/-- R96: the bytes `DATA[LEN..15]` are not read: two states that differ only there give the same MAC context and STATUS. -/
def Obligations.MacInputIgnoresDataBeyondLen : Prop :=
  ∀ (len : Nat) (s t : State) (d : Block), (∀ i : Fin 16, i.val < len → d[i] = s.data[i]) →
    exec (.macInput len) s = .next t → exec (.macInput len) { s with data := d } = .next { t with data := d }

/-- R96: a MAC_INPUT chains at most one block: X stays, or becomes the chaining of what BUF held when the command started and
of bytes of DATA that complete it. -/
def Obligations.MacInputChainsAtMostOneBlock : Prop :=
  ∀ (len : Nat) (s t : State), exec (.macInput len) s = .next t →
    t.macCtx.x = s.macCtx.x ∨
      ∃ b : Block, t.macCtx.x = cipher s.macCtx.rk (xorBytes s.macCtx.x b) ∧
        ∀ i : Fin 16, b[i] =
          if i.val < s.macCtx.blen.val then s.macCtx.buf[i] else s.data.toList.getD (i.val - s.macCtx.blen.val) 0

/-! ## Frames and independence -/

/-- R15, R16, R26: what KEY_LOAD, ENC and DEC leave unchanged. KEY_LOAD writes the cipher context only, ENC and DEC write
DATA only; ERR is written by all three and ESTICKY can only be set. -/
def Obligations.CipherCommandsFrame : Prop :=
  ∀ (i : Instr) (s t : State), (i = .keyLoad ∨ i = .enc ∨ i = .dec) → exec i s = .next t →
    t.key = s.key ∧ t.macCtx = s.macCtx ∧ t.inReset = s.inReset ∧ t.port = s.port ∧
      (i = .keyLoad → t.data = s.data) ∧ (i ≠ .keyLoad → t.cipherCtx = s.cipherCtx) ∧
      (s.esticky = true → t.esticky = true)

/-- R15, R16, R25, R26, R97: what the four MAC commands leave unchanged. Only MAC_FINAL writes DATA, only MAC_INIT writes the
schedule, and MAC_FINAL leaves X, BUF and BLEN. -/
def Obligations.MacCommandsFrame : Prop :=
  ∀ (i : Instr) (s t : State), (i = .macInit ∨ (∃ len, i = .macInput len) ∨ i = .macFinal ∨ i = .macReset) →
    exec i s = .next t →
    t.key = s.key ∧ t.cipherCtx = s.cipherCtx ∧ t.inReset = s.inReset ∧ t.port = s.port ∧
      (i ≠ .macFinal → t.data = s.data) ∧
      (i ≠ .macInit → t.macCtx.rk = s.macCtx.rk ∧ t.macCtx.nr = s.macCtx.nr) ∧
      (i = .macFinal → t.macCtx.x = s.macCtx.x ∧ t.macCtx.buf = s.macCtx.buf ∧ t.macCtx.blen = s.macCtx.blen) ∧
      (s.esticky = true → t.esticky = true)

/-- R26: no command of the cipher family reads or writes the MAC context, and none of the MAC family reads or writes the
cipher context: with any other context in its place the command does the same and leaves it as it is. -/
def Obligations.ContextsAreIndependent : Prop :=
  (∀ (i : Instr) (s t : State) (m : MacContext), (i = .keyLoad ∨ i = .enc ∨ i = .dec) → exec i s = .next t →
    t.macCtx = s.macCtx ∧ exec i { s with macCtx := m } = .next { t with macCtx := m }) ∧
    (∀ (i : Instr) (s t : State) (c : CipherContext),
      (i = .macInit ∨ (∃ len, i = .macInput len) ∨ i = .macFinal ∨ i = .macReset) → exec i s = .next t →
      t.cipherCtx = s.cipherCtx ∧ exec i { s with cipherCtx := c } = .next { t with cipherCtx := c })

/-- R25, R135: a loaded key is a snapshot: every command but KEY_LOAD and MAC_INIT does the same whatever KEY holds. -/
def Obligations.LoadedKeyIsASnapshot : Prop :=
  ∀ (i : Instr) (s t : State) (k : Block), i ≠ .keyLoad → i ≠ .macInit → exec i s = .next t →
    exec i { s with key := k } = .next { t with key := k }

/-! ## The AES functions -/

/-- R63: `gmul` is the polynomial product reduced modulo 0x11B. -/
def Obligations.GmulIsPolynomialProduct : Prop := ∀ a b : Byte, gmul a b = polyMod (polyMul a b)

/-- R64, R65: `inv(b)` is the one byte whose product with `b` is 01, `inv(00) = 00`, and the S-box table is the affine map of
the inverse. -/
def Obligations.SboxIsAffineOfInverse : Prop :=
  (∀ b : Byte, b ≠ 0 → ∀ c, gmul b c = 1 ↔ c = gfInv b) ∧ gfInv 0 = 0 ∧ ∀ b : Byte, sbox b = affine (gfInv b)

/-- R66: the inverse S-box undoes the S-box, and the S-box is a permutation. -/
def Obligations.InvSboxInvertsSbox : Prop := ∀ a b : Byte, sbox a = b ↔ invSbox b = a

/-- R69, R72: ShiftRows rotates row `r` left by `r`, InvShiftRows right by `r`, and each undoes the other. -/
def Obligations.ShiftRowsRotatesRows : Prop :=
  (∀ (B : Block) (r c : Fin 4), cell (shiftRows B) r c = cell B r (c + r)) ∧
    (∀ (B : Block) (r c : Fin 4), cell (invShiftRows B) r c = cell B r (c - r)) ∧
    ∀ B : Block, invShiftRows (shiftRows B) = B ∧ shiftRows (invShiftRows B) = B

/-- R70, R74: MixColumns and InvMixColumns multiply each column by their matrices, and InvMixColumns undoes MixColumns, for
every state. -/
def Obligations.InvMixColumnsInvertsMixColumns : Prop :=
  ∀ B : Block,
    (∀ c : Fin 4,
      let s (r : Fin 4) : Byte := cell B r c
      let m (r : Fin 4) : Byte := cell (mixColumns B) r c
      let n (r : Fin 4) : Byte := cell (invMixColumns B) r c
      m 0 = gmul 0x02 (s 0) ^^^ gmul 0x03 (s 1) ^^^ s 2 ^^^ s 3 ∧
        m 1 = s 0 ^^^ gmul 0x02 (s 1) ^^^ gmul 0x03 (s 2) ^^^ s 3 ∧
        m 2 = s 0 ^^^ s 1 ^^^ gmul 0x02 (s 2) ^^^ gmul 0x03 (s 3) ∧
        m 3 = gmul 0x03 (s 0) ^^^ s 1 ^^^ s 2 ^^^ gmul 0x02 (s 3) ∧
        n 0 = gmul 0x0e (s 0) ^^^ gmul 0x0b (s 1) ^^^ gmul 0x0d (s 2) ^^^ gmul 0x09 (s 3) ∧
        n 1 = gmul 0x09 (s 0) ^^^ gmul 0x0e (s 1) ^^^ gmul 0x0b (s 2) ^^^ gmul 0x0d (s 3) ∧
        n 2 = gmul 0x0d (s 0) ^^^ gmul 0x09 (s 1) ^^^ gmul 0x0e (s 2) ^^^ gmul 0x0b (s 3) ∧
        n 3 = gmul 0x0b (s 0) ^^^ gmul 0x0d (s 1) ^^^ gmul 0x09 (s 2) ^^^ gmul 0x0e (s 3)) ∧
    invMixColumns (mixColumns B) = B ∧ mixColumns (invMixColumns B) = B

/-- R77, R79, R80: the words of a key's schedule follow the recurrence of KeyExpansion, and the first round key is the
key. -/
def Obligations.KeyExpansionRecurrence : Prop :=
  ∀ K : Block,
    let w := scheduleWord (keyExpansion K)
    (keyExpansion K)[0] = K ∧
      (∀ i : Fin 4, ∀ k : Fin 4, (w ⟨i.val, by omega⟩)[k] = K[4 * i.val + k.val]) ∧
      ∀ i : Fin 44, ∀ h : 4 ≤ i.val,
        let prev := w ⟨i.val - 1, by omega⟩
        let temp := if i.val % 4 = 0 then xorBytes (subWord (rotWord prev)) (rcon (i.val / 4)) else prev
        w i = xorBytes (w ⟨i.val - 4, by omega⟩) temp

/-- R83: InvCipher undoes Cipher and Cipher undoes InvCipher, for every schedule and so for every key. -/
def Obligations.InvCipherInvertsCipher : Prop :=
  ∀ (rk : Schedule) (B : Block), invCipher rk (cipher rk B) = B ∧ cipher rk (invCipher rk B) = B

/-! ## The CMAC engine -/

/-- R89: `Dbl` shifts the 128-bit number one place left and adds 0x87 where the top bit was set. -/
def Obligations.DblShiftsAndReduces : Prop :=
  ∀ B : Block, bitsOfBlock (dbl B) =
    if (bitsOfBlock B).getLsbD 127 then (bitsOfBlock B <<< 1) ^^^ 0x87 else bitsOfBlock B <<< 1

/-- R91: `Pad(B, n)` keeps the first `n` bytes, then has 0x80, then zeros; the bytes `B[n..15]` do not affect it. -/
def Obligations.PadKeepsTheFirstBytes : Prop :=
  ∀ (B C : Block) (n : Nat), n < 16 →
    (∀ i : Fin 16, (i.val < n → (pad B n)[i] = B[i]) ∧ (i.val = n → (pad B n)[i] = 0x80) ∧
      (n < i.val → (pad B n)[i] = 0x00)) ∧
    ((∀ i : Fin 16, i.val < n → B[i] = C[i]) → pad B n = pad C n)

/-- R100, R101: after a byte stream has been absorbed from an empty computation, X is the CBC chain of the blocks before the
last, BLEN the length of the last block, BUF its bytes; BLEN is 16 exactly for a positive multiple of 16, and otherwise the
length modulo 16. -/
def Obligations.AbsorbedStreamIsCbcChain : Prop :=
  ∀ (m : MacContext) (S : List Byte), m.x = zeroBlock → m.blen = 0 →
    let r := absorbAll m S
    let q := (S.length - 1) / 16
    r.x = cbcChain m.rk S q ∧ r.blen.val = S.length - 16 * q ∧
      (∀ i : Fin 16, i.val < r.blen.val → r.buf[i] = S.getD (16 * q + i.val) 0) ∧
      (0 < S.length → 1 ≤ r.blen.val) ∧
      (r.blen.val = 16 ↔ 0 < S.length ∧ S.length % 16 = 0) ∧ (r.blen.val ≠ 16 → r.blen.val = S.length % 16)

/-- R99: chunking invariance: two splits of one byte stream into chunks of at most 16 bytes, fed in order to an engine that
takes input, leave the same MAC context, and MAC_FINAL then writes the same DATA. -/
def Obligations.ChunkingDoesNotMatter : Prop :=
  ∀ (c d : List (List Byte)) (s : State), (∀ k ∈ c, k.length ≤ 16) → (∀ k ∈ d, k.length ≤ 16) →
    c.flatten = d.flatten → (s.macCtx.mstate = .fresh ∨ s.macCtx.mstate = .accumulating) →
    ∃ t u t' u', feedChunks c s = .next t ∧ feedChunks d s = .next u ∧ t.macCtx = u.macCtx ∧
      exec .macFinal t = .next t' ∧ exec .macFinal u = .next u' ∧ t'.data = u'.data

/-- R102: after MAC_INIT, the MAC_INPUTs of any byte stream in chunks of at most 16 bytes, and MAC_FINAL, DATA is the
AES-CMAC of the stream under KEY. The reference function is RFC 4493 as the spec gives it from general knowledge. -/
def Obligations.TagIsAesCmacOfTheStream : Prop :=
  ∀ (c : List (List Byte)) (s : State), (∀ k ∈ c, k.length ≤ 16) →
    ∃ t u v, exec .macInit s = .next t ∧ feedChunks c t = .next u ∧ exec .macFinal u = .next v ∧
      v.data = aesCmac s.key c.flatten ∧ v.err = .ok ∧ v.macCtx.mstate = .finalized

/-- R103: reset idempotence: after MAC_RESET under a bound key, the same input gives the same tag and MSTATE as after
MAC_INIT with that key on any other block. -/
def Obligations.MacResetLikeMacInit : Prop :=
  ∀ (c : List (List Byte)) (s s' : State), (∀ k ∈ c, k.length ≤ 16) → s.macCtx.mstate ≠ .unkeyed →
    s.macCtx.rk = keyExpansion s'.key →
    ∃ t u v t' u' v', exec .macReset s = .next t ∧ feedChunks c t = .next u ∧ exec .macFinal u = .next v ∧
      exec .macInit s' = .next t' ∧ feedChunks c t' = .next u' ∧ exec .macFinal u' = .next v' ∧
      v.data = v'.data ∧ u.macCtx.mstate = u'.macCtx.mstate ∧ v.macCtx.mstate = v'.macCtx.mstate

/-! ## Invariants -/

/-- R24, R28, R125: every step keeps the invariant: a loaded schedule is the expansion of a key with round counter 10, Fresh
has `BLEN = 0` and `X = 0^128`, Accumulating has BLEN in 1..16, and an asserted reset input holds the state at its reset
values. That the values stand from the moment of assertion is the model's choice (log entry 3). -/
def Obligations.StepKeepsInvariant : Prop := ∀ s t : State, Inv s → step s = .next t → Inv t

/-- The invariant holds right after reset. -/
def Obligations.ResetMeetsInvariant : Prop := Inv State.reset

/-- R30, R127, R29: what R126 leaves unspecified and the buffer bytes beyond BLEN are unobservable: two states that differ
only there step to states that differ only there, with the same values returned to the host, or stop with the same fault. -/
def Obligations.HiddenStateIsUnobservable : Prop :=
  ∀ s t : State, Indistinguishable s t → OutcomesAlike (step s) (step t)

/-! ## Reset -/

/-- R126: the values after reset of the state that the rule specifies. -/
def Obligations.ResetValuesOfTheTable : Prop :=
  State.reset.key = Vector.replicate 16 0 ∧ State.reset.data = Vector.replicate 16 0 ∧ State.reset.err = .ok ∧
    State.reset.esticky = false ∧ State.reset.cipherCtx.valid = false ∧ State.reset.macCtx.mstate = .unkeyed ∧
    statusWord State.reset = 0x00000000

/-- R125, R129, R130: from any state, asserting reset and releasing it leaves the values of R126 and abandons the access in
progress, which never completes; in between, every access gets no response. That such an access is a fault by name is the
model's form of "stuck" (log entry 6). -/
def Obligations.HardwareResetRestoresEverything : Prop :=
  ∀ (s : State) (p : Option Access), ∃ t u,
    hostAction (.resetAssert p) s = .next t ∧ hostAction .resetRelease t = .next u ∧
      t.inReset = true ∧ (∀ a, hostAction (.access a) t = .fault .noResponseInReset) ∧
      u.inReset = false ∧ HoldsResetValues u ∧ statusWord u = 0 ∧ u.port = s.port ∧
      ∃ v, exec .enc u = .next v ∧ v.err = .noKey ∧ v.data = zeroBlock

/-! ## Systems and hosts -/

/-- R32, R34, R48: an access on the host bus changes no instance but the one whose window holds its address, and an access
outside every window changes none. That the address an access starts at decides, whatever its width, is the model's choice
(log entry 11, DESIGN CHOICE), and that no two instances have one BASE is its reading of R6 and R48 (log entry 10, DEDUCED). -/
def Obligations.InstancesShareNoState : Prop :=
  ∀ (sys sys' : System) (addr m bytes : Nat) (k : AccessKind), systemWf sys = true →
    systemAccess addr m bytes k sys = .next sys' →
    sys'.map Instance.base = sys.map Instance.base ∧
      (∀ (n : Nat) (x y : Instance), sys[n]? = some x → sys'[n]? = some y →
        if x.base ≤ addr ∧ addr < x.base + 64 then
          busAccess { master := m, offset := BitVec.ofNat 6 (addr - x.base), bytes := bytes, kind := k } x.block =
            .next y.block
        else x = y)

/-- R121, R47: an access has the same effect whichever master issues it; only the completion is the issuing master's. -/
def Obligations.MastersAreEqual : Prop :=
  ∀ (a : Access) (n : Nat) (s t : State), busAccess a s = .next t →
    ∃ v, t.port.completed = s.port.completed ++ [{ master := a.master, value := v }] ∧
      busAccess { a with master := n } s =
        .next { t with port := { t.port with completed := s.port.completed ++ [{ master := n, value := v }] } }

/-- R60: the expansions of WRKEY, WRDATA, CMD, RDDATA and CLRERR do at the port what their names say. -/
def Obligations.PseudoInstructionsDoWhatTheySay : Prop :=
  ∀ (m : Nat) (b : Block) (s : State), s.inReset = false →
    let done (n : Nat) : Port :=
      { s.port with completed := s.port.completed ++ List.replicate n { master := m, value := none } }
    runActions (expandLine m (.wrKey b)) s = .next { s with key := b, port := done 4 } ∧
      runActions (expandLine m (.wrData b)) s = .next { s with data := b, port := done 4 } ∧
      runActions (expandLine m .clrErr) s = .next { s with esticky := false, port := done 1 } ∧
      (∀ i : Instr, i.wf = true → runActions (expandLine m (.cmd i)) s = completeWrite m (exec i s)) ∧
      ∃ t, runActions (expandLine m .rdData) s = .next t ∧
        t = { s with port := { s.port with completed := s.port.completed ++
          ([0, 1, 2, 3] : List (Fin 4)).map fun j => { master := m, value := some (getWord s.data j) } } }
end

