-- ==== Sys2Proof/Laws/Aes.lean ====
section
/-! SUPPORT. The bytes of the blocks the AES and CMAC functions build, one lemma per shared function. -/

namespace Sys2Proof.Machine

@[simp] theorem zeroBlock_get (i : Nat) (h : i < 16) : zeroBlock[i] = 0 := by simp [zeroBlock]

@[simp] theorem xorBytes_get {n : Nat} (a b : Vector Byte n) (i : Nat) (h : i < n) :
    (xorBytes a b)[i] = a[i] ^^^ b[i] := by simp [xorBytes]

/-- Adding the same bytes twice adds nothing (R62, R71). -/
theorem xorBytes_cancel {n : Nat} (a b : Vector Byte n) : xorBytes (xorBytes a b) b = a := by
  refine Vector.ext fun i h => ?_
  simp

theorem ofCells_get (f : Fin 4 → Fin 4 → Byte) (i : Nat) (h : i < 16) :
    (ofCells f)[i] = f ⟨i % 4, by omega⟩ ⟨i / 4, by omega⟩ := by simp [ofCells]

/-- The store of R67 followed by its load. -/
@[simp] theorem cell_ofCells (f : Fin 4 → Fin 4 → Byte) (r c : Fin 4) : cell (ofCells f) r c = f r c := by
  have hr := r.isLt
  have hc := c.isLt
  rw [cell, ofCells_get]
  congr 1 <;> apply Fin.ext <;> simp only <;> omega

/-- The load of R67 followed by its store. -/
theorem ofCells_cell (B : Block) : ofCells (cell B) = B := by
  refine Vector.ext fun i h => ?_
  rw [ofCells_get, cell]
  congr 1
  simp only
  omega

/-- Two blocks whose cells agree are equal. -/
theorem block_ext_cells {A B : Block} (h : ∀ r c, cell A r c = cell B r c) : A = B := by
  rw [← ofCells_cell A, ← ofCells_cell B]
  congr 1
  funext r c
  exact h r c

@[simp] theorem cell_ofColumns (f : Fin 4 → Quad) (r c : Fin 4) : cell (ofColumns f) r c = (f c)[r] := by
  simp [ofColumns]

@[simp] theorem column_get (B : Block) (c r : Fin 4) : (column B c)[r] = cell B r c := by
  fin_cases r <;> rfl

@[simp] theorem column_ofColumns (f : Fin 4 → Quad) (c : Fin 4) : column (ofColumns f) c = f c := by
  refine Vector.ext fun i h => ?_
  simpa using column_get (ofColumns f) c ⟨i, h⟩

@[simp] theorem subBytes_get (B : Block) (i : Nat) (h : i < 16) : (subBytes B)[i] = sbox B[i] := by simp [subBytes]

@[simp] theorem invSubBytes_get (B : Block) (i : Nat) (h : i < 16) : (invSubBytes B)[i] = invSbox B[i] := by
  simp [invSubBytes]

@[simp] theorem blockOfBits_get (v : BitVec 128) (i : Nat) (h : i < 16) :
    (blockOfBits v)[i] = v.extractLsb' (8 * (15 - i)) 8 := by simp [blockOfBits]

@[simp] theorem pad_get (B : Block) (n i : Nat) (h : i < 16) :
    (pad B n)[i] = if i < n then B[i] else if i = n then 0x80 else 0x00 := by simp [pad]

@[simp] theorem setWord_get (r : Block) (j : Fin 4) (v : Word) (i : Nat) (h : i < 16) :
    (setWord r j v)[i] = if i / 4 = j.val then wordByte v ⟨i % 4, by omega⟩ else r[i] := by simp [setWord]

end Sys2Proof.Machine
end

