-- ==== Sys2Proof/Laws/Decode.lean ====
section
/-! SUPPORT. The decoder as a function of the three fields of the word, and what a decoded command has in common with them
(30_encoding.md R51, R58). -/

namespace Sys2Proof

/-- What the decoder makes of OP and LEN once RSV is 0 (R58). -/
def decodeFields (op : BitVec 4) (len : BitVec 5) : Except IllegalWord Instr :=
  match op.toNat with
  | 0x1 => withoutLen len.toNat .keyLoad
  | 0x2 => withoutLen len.toNat .enc
  | 0x3 => withoutLen len.toNat .dec
  | 0x4 => withoutLen len.toNat .macInit
  | 0x5 => .ok (.macInput len.toNat)
  | 0x6 => withoutLen len.toNat .macFinal
  | 0x7 => withoutLen len.toNat .macReset
  | _ => .error .reservedOp

/-- The decoder reads the word through its three fields only, so a claim about it splits into 16 OP and 32 LEN values. -/
theorem decode_eq_fields (w : Word) :
    decode w = if rsvField w ≠ 0 then .error .reservedBits else decodeFields (opField w) (lenField w) := rfl

/-- The number of a word, by its fields. -/
theorem word_eq_fields (w : Word) :
    w.toNat = (rsvField w).toNat * 512 + (lenField w).toNat * 16 + (opField w).toNat := by
  simp only [rsvField, lenField, opField, BitVec.extractLsb'_toNat, Nat.shiftRight_eq_div_pow]
  have := w.isLt
  omega

/-- The number of an encoded command, by its fields. -/
theorem encode_toNat (i : Instr) : (encode i).toNat = (lenCode i).toNat * 16 + (opCode i).toNat := by
  unfold encode
  have h1 := (lenCode i).isLt
  have h2 := (opCode i).isLt
  have := Nat.shiftLeft_add_eq_or_of_lt (b := (opCode i).toNat) (i := 4) (by omega) (lenCode i).toNat
  simp only [BitVec.toNat_append, Nat.shiftLeft_eq] at this ⊢
  simpa using this.symm

end Sys2Proof
end

