-- ==== Sys2Proof/Laws/State.lean ====
section
/-! SUPPORT. Each field of the state after each named update of Machine/Ops.lean, true by unfolding. -/

namespace Sys2Proof.Machine

@[simp] theorem State.setKey_key (s : State) (v : Block) : (s.setKey v).key = v := rfl
@[simp] theorem State.setKey_data (s : State) (v : Block) : (s.setKey v).data = s.data := rfl
@[simp] theorem State.setKey_err (s : State) (v : Block) : (s.setKey v).err = s.err := rfl
@[simp] theorem State.setKey_esticky (s : State) (v : Block) : (s.setKey v).esticky = s.esticky := rfl
@[simp] theorem State.setKey_cipherCtx (s : State) (v : Block) : (s.setKey v).cipherCtx = s.cipherCtx := rfl
@[simp] theorem State.setKey_macCtx (s : State) (v : Block) : (s.setKey v).macCtx = s.macCtx := rfl
@[simp] theorem State.setKey_inReset (s : State) (v : Block) : (s.setKey v).inReset = s.inReset := rfl
@[simp] theorem State.setKey_port (s : State) (v : Block) : (s.setKey v).port = s.port := rfl

@[simp] theorem State.setData_key (s : State) (v : Block) : (s.setData v).key = s.key := rfl
@[simp] theorem State.setData_data (s : State) (v : Block) : (s.setData v).data = v := rfl
@[simp] theorem State.setData_err (s : State) (v : Block) : (s.setData v).err = s.err := rfl
@[simp] theorem State.setData_esticky (s : State) (v : Block) : (s.setData v).esticky = s.esticky := rfl
@[simp] theorem State.setData_cipherCtx (s : State) (v : Block) : (s.setData v).cipherCtx = s.cipherCtx := rfl
@[simp] theorem State.setData_macCtx (s : State) (v : Block) : (s.setData v).macCtx = s.macCtx := rfl
@[simp] theorem State.setData_inReset (s : State) (v : Block) : (s.setData v).inReset = s.inReset := rfl
@[simp] theorem State.setData_port (s : State) (v : Block) : (s.setData v).port = s.port := rfl

@[simp] theorem State.setCipherCtx_key (s : State) (c : CipherContext) : (s.setCipherCtx c).key = s.key := rfl
@[simp] theorem State.setCipherCtx_data (s : State) (c : CipherContext) : (s.setCipherCtx c).data = s.data := rfl
@[simp] theorem State.setCipherCtx_err (s : State) (c : CipherContext) : (s.setCipherCtx c).err = s.err := rfl
@[simp] theorem State.setCipherCtx_esticky (s : State) (c : CipherContext) : (s.setCipherCtx c).esticky = s.esticky := rfl
@[simp] theorem State.setCipherCtx_cipherCtx (s : State) (c : CipherContext) : (s.setCipherCtx c).cipherCtx = c := rfl
@[simp] theorem State.setCipherCtx_macCtx (s : State) (c : CipherContext) : (s.setCipherCtx c).macCtx = s.macCtx := rfl
@[simp] theorem State.setCipherCtx_inReset (s : State) (c : CipherContext) : (s.setCipherCtx c).inReset = s.inReset := rfl
@[simp] theorem State.setCipherCtx_port (s : State) (c : CipherContext) : (s.setCipherCtx c).port = s.port := rfl

@[simp] theorem State.setMacCtx_key (s : State) (m : MacContext) : (s.setMacCtx m).key = s.key := rfl
@[simp] theorem State.setMacCtx_data (s : State) (m : MacContext) : (s.setMacCtx m).data = s.data := rfl
@[simp] theorem State.setMacCtx_err (s : State) (m : MacContext) : (s.setMacCtx m).err = s.err := rfl
@[simp] theorem State.setMacCtx_esticky (s : State) (m : MacContext) : (s.setMacCtx m).esticky = s.esticky := rfl
@[simp] theorem State.setMacCtx_cipherCtx (s : State) (m : MacContext) : (s.setMacCtx m).cipherCtx = s.cipherCtx := rfl
@[simp] theorem State.setMacCtx_macCtx (s : State) (m : MacContext) : (s.setMacCtx m).macCtx = m := rfl
@[simp] theorem State.setMacCtx_inReset (s : State) (m : MacContext) : (s.setMacCtx m).inReset = s.inReset := rfl
@[simp] theorem State.setMacCtx_port (s : State) (m : MacContext) : (s.setMacCtx m).port = s.port := rfl

@[simp] theorem State.succeed_key (s : State) : (s.succeed).key = s.key := rfl
@[simp] theorem State.succeed_data (s : State) : (s.succeed).data = s.data := rfl
@[simp] theorem State.succeed_err (s : State) : (s.succeed).err = .ok := rfl
@[simp] theorem State.succeed_esticky (s : State) : (s.succeed).esticky = s.esticky := rfl
@[simp] theorem State.succeed_cipherCtx (s : State) : (s.succeed).cipherCtx = s.cipherCtx := rfl
@[simp] theorem State.succeed_macCtx (s : State) : (s.succeed).macCtx = s.macCtx := rfl
@[simp] theorem State.succeed_inReset (s : State) : (s.succeed).inReset = s.inReset := rfl
@[simp] theorem State.succeed_port (s : State) : (s.succeed).port = s.port := rfl

@[simp] theorem State.failWith_key (s : State) (c : ErrCode) : (s.failWith c).key = s.key := rfl
@[simp] theorem State.failWith_data (s : State) (c : ErrCode) : (s.failWith c).data = s.data := rfl
@[simp] theorem State.failWith_err (s : State) (c : ErrCode) : (s.failWith c).err = c := rfl
@[simp] theorem State.failWith_esticky (s : State) (c : ErrCode) : (s.failWith c).esticky = true := rfl
@[simp] theorem State.failWith_cipherCtx (s : State) (c : ErrCode) : (s.failWith c).cipherCtx = s.cipherCtx := rfl
@[simp] theorem State.failWith_macCtx (s : State) (c : ErrCode) : (s.failWith c).macCtx = s.macCtx := rfl
@[simp] theorem State.failWith_inReset (s : State) (c : ErrCode) : (s.failWith c).inReset = s.inReset := rfl
@[simp] theorem State.failWith_port (s : State) (c : ErrCode) : (s.failWith c).port = s.port := rfl

@[simp] theorem State.clearSticky_key (s : State) : (s.clearSticky).key = s.key := rfl
@[simp] theorem State.clearSticky_data (s : State) : (s.clearSticky).data = s.data := rfl
@[simp] theorem State.clearSticky_err (s : State) : (s.clearSticky).err = s.err := rfl
@[simp] theorem State.clearSticky_esticky (s : State) : (s.clearSticky).esticky = false := rfl
@[simp] theorem State.clearSticky_cipherCtx (s : State) : (s.clearSticky).cipherCtx = s.cipherCtx := rfl
@[simp] theorem State.clearSticky_macCtx (s : State) : (s.clearSticky).macCtx = s.macCtx := rfl
@[simp] theorem State.clearSticky_inReset (s : State) : (s.clearSticky).inReset = s.inReset := rfl
@[simp] theorem State.clearSticky_port (s : State) : (s.clearSticky).port = s.port := rfl

@[simp] theorem State.setPending_key (s : State) (l : List HostAction) : (s.setPending l).key = s.key := rfl
@[simp] theorem State.setPending_data (s : State) (l : List HostAction) : (s.setPending l).data = s.data := rfl
@[simp] theorem State.setPending_err (s : State) (l : List HostAction) : (s.setPending l).err = s.err := rfl
@[simp] theorem State.setPending_esticky (s : State) (l : List HostAction) : (s.setPending l).esticky = s.esticky := rfl
@[simp] theorem State.setPending_cipherCtx (s : State) (l : List HostAction) : (s.setPending l).cipherCtx = s.cipherCtx := rfl
@[simp] theorem State.setPending_macCtx (s : State) (l : List HostAction) : (s.setPending l).macCtx = s.macCtx := rfl
@[simp] theorem State.setPending_inReset (s : State) (l : List HostAction) : (s.setPending l).inReset = s.inReset := rfl
@[simp] theorem State.setPending_port (s : State) (l : List HostAction) : (s.setPending l).port = { s.port with pending := l } := rfl

@[simp] theorem State.complete_key (s : State) (n : Nat) (v : Option Word) : (s.complete n v).key = s.key := rfl
@[simp] theorem State.complete_data (s : State) (n : Nat) (v : Option Word) : (s.complete n v).data = s.data := rfl
@[simp] theorem State.complete_err (s : State) (n : Nat) (v : Option Word) : (s.complete n v).err = s.err := rfl
@[simp] theorem State.complete_esticky (s : State) (n : Nat) (v : Option Word) : (s.complete n v).esticky = s.esticky := rfl
@[simp] theorem State.complete_cipherCtx (s : State) (n : Nat) (v : Option Word) : (s.complete n v).cipherCtx = s.cipherCtx := rfl
@[simp] theorem State.complete_macCtx (s : State) (n : Nat) (v : Option Word) : (s.complete n v).macCtx = s.macCtx := rfl
@[simp] theorem State.complete_inReset (s : State) (n : Nat) (v : Option Word) : (s.complete n v).inReset = s.inReset := rfl
@[simp] theorem State.complete_port (s : State) (n : Nat) (v : Option Word) : (s.complete n v).port = { s.port with completed := s.port.completed ++ [{ master := n, value := v }] } := rfl

@[simp] theorem State.hardwareReset_key (s : State) (b : Bool) : (s.hardwareReset b).key = zeroBlock := rfl
@[simp] theorem State.hardwareReset_data (s : State) (b : Bool) : (s.hardwareReset b).data = zeroBlock := rfl
@[simp] theorem State.hardwareReset_err (s : State) (b : Bool) : (s.hardwareReset b).err = .ok := rfl
@[simp] theorem State.hardwareReset_esticky (s : State) (b : Bool) : (s.hardwareReset b).esticky = false := rfl
@[simp] theorem State.hardwareReset_cipherCtx (s : State) (b : Bool) : (s.hardwareReset b).cipherCtx = CipherContext.reset := rfl
@[simp] theorem State.hardwareReset_macCtx (s : State) (b : Bool) : (s.hardwareReset b).macCtx = MacContext.reset := rfl
@[simp] theorem State.hardwareReset_inReset (s : State) (b : Bool) : (s.hardwareReset b).inReset = b := rfl
@[simp] theorem State.hardwareReset_port (s : State) (b : Bool) : (s.hardwareReset b).port = s.port := rfl

@[simp] theorem State.reset_key : State.reset.key = zeroBlock := rfl
@[simp] theorem State.reset_data : State.reset.data = zeroBlock := rfl
@[simp] theorem State.reset_err : State.reset.err = .ok := rfl
@[simp] theorem State.reset_esticky : State.reset.esticky = false := rfl
@[simp] theorem State.reset_cipherCtx : State.reset.cipherCtx = CipherContext.reset := rfl
@[simp] theorem State.reset_macCtx : State.reset.macCtx = MacContext.reset := rfl
@[simp] theorem State.reset_inReset : State.reset.inReset = false := rfl
@[simp] theorem State.reset_port : State.reset.port = { pending := [], completed := [] } := rfl

@[simp] theorem CipherContext.reset_valid : CipherContext.reset.valid = false := rfl
@[simp] theorem MacContext.reset_mstate : MacContext.reset.mstate = .unkeyed := rfl

end Sys2Proof.Machine
end

