-- ==== Sys2Proof/Laws/Ops.lean ====
section
/-! SUPPORT. What each shared operation can do, said once: the ends of a command, the status word, the register map, the
port's operations and the step. The provers cite these instead of unfolding the operations. -/

namespace Sys2Proof.Machine

/-! ### The ends of a command -/

theorem raiseError_eq_next {code : ErrCode} {s t : State} : raiseError code s = .next t ↔ t = s.failWith code :=
  ⟨fun h => by cases h; rfl, fun h => by subst h; rfl⟩

theorem finish_eq_next {s t : State} : finish s = .next t ↔ t = s.succeed :=
  ⟨fun h => by cases h; rfl, fun h => by subst h; rfl⟩

/-! ### The meanings: what each command can do -/

theorem execKeyLoad_eq (s : State) :
    execKeyLoad s = .next (s.setCipherCtx { rk := keyExpansion s.key, nr := 10, valid := true }).succeed := rfl

theorem execEnc_cases (s : State) :
    (s.cipherCtx.valid = true ∧ execEnc s = .next (s.setData (cipher s.cipherCtx.rk s.data)).succeed) ∨
      (s.cipherCtx.valid = false ∧ execEnc s = .next (s.failWith .noKey)) := by
  cases h : s.cipherCtx.valid <;> simp [execEnc, h, finish, raiseError]

theorem execDec_cases (s : State) :
    (s.cipherCtx.valid = true ∧ execDec s = .next (s.setData (invCipher s.cipherCtx.rk s.data)).succeed) ∨
      (s.cipherCtx.valid = false ∧ execDec s = .next (s.failWith .noKey)) := by
  cases h : s.cipherCtx.valid <;> simp [execDec, h, finish, raiseError]

theorem execMacInit_eq (s : State) :
    execMacInit s =
      .next (s.setMacCtx (restartMac { s.macCtx with rk := keyExpansion s.key, nr := 10 })).succeed := rfl

/-- The four ends of MAC_INPUT, in the order of its checks. -/
theorem execMacInput_cases (len : Nat) (s : State) :
    (16 < len ∧ execMacInput len s = .next (s.failWith .capacity)) ∨
      (len ≤ 16 ∧ s.macCtx.mstate = .unkeyed ∧ execMacInput len s = .next (s.failWith .noKey)) ∨
      (len ≤ 16 ∧ s.macCtx.mstate = .finalized ∧ execMacInput len s = .next (s.failWith .misuse)) ∨
      (len ≤ 16 ∧ s.macCtx.mstate ≠ .unkeyed ∧ s.macCtx.mstate ≠ .finalized ∧
        execMacInput len s =
          .next (s.setMacCtx
            (if len > 0 then { absorbAll s.macCtx (inputBytes s.data len) with mstate := .accumulating }
              else absorbAll s.macCtx (inputBytes s.data len))).succeed) := by
  unfold execMacInput
  by_cases h : len > Config.maxInputLen
  · exact .inl ⟨h, by rw [if_pos h]; rfl⟩
  · have h16 : len ≤ 16 := Nat.le_of_not_lt h
    by_cases hu : s.macCtx.mstate = .unkeyed
    · exact .inr (.inl ⟨h16, hu, by rw [if_neg h, if_pos hu]; rfl⟩)
    · by_cases hf : s.macCtx.mstate = .finalized
      · exact .inr (.inr (.inl ⟨h16, hf, by rw [if_neg h, if_neg hu, if_pos hf]; rfl⟩))
      · exact .inr (.inr (.inr ⟨h16, hu, hf, by rw [if_neg h, if_neg hu, if_neg hf]; rfl⟩))

/-- The three ends of MAC_FINAL, in the order of its checks. -/
theorem execMacFinal_cases (s : State) :
    (s.macCtx.mstate = .unkeyed ∧ execMacFinal s = .next (s.failWith .noKey)) ∨
      (s.macCtx.mstate = .finalized ∧ execMacFinal s = .next (s.failWith .misuse)) ∨
      (s.macCtx.mstate ≠ .unkeyed ∧ s.macCtx.mstate ≠ .finalized ∧
        execMacFinal s =
          .next ((s.setData (tag s.macCtx)).setMacCtx { s.macCtx with mstate := .finalized }).succeed) := by
  unfold execMacFinal
  by_cases hu : s.macCtx.mstate = .unkeyed
  · exact .inl ⟨hu, by rw [if_pos hu]; rfl⟩
  · by_cases hf : s.macCtx.mstate = .finalized
    · exact .inr (.inl ⟨hf, by rw [if_neg hu, if_pos hf]; rfl⟩)
    · exact .inr (.inr ⟨hu, hf, by rw [if_neg hu, if_neg hf]; rfl⟩)

theorem execMacReset_cases (s : State) :
    (s.macCtx.mstate = .unkeyed ∧ execMacReset s = .next (s.failWith .noKey)) ∨
      (s.macCtx.mstate ≠ .unkeyed ∧ execMacReset s = .next (s.setMacCtx (restartMac s.macCtx)).succeed) := by
  unfold execMacReset
  by_cases hu : s.macCtx.mstate = .unkeyed
  · exact .inl ⟨hu, by rw [if_pos hu]; rfl⟩
  · exact .inr ⟨hu, by rw [if_neg hu]; rfl⟩

/-! ### STATUS -/

/-- The two ends of a host write to STATUS. -/
theorem writeStatus_cases (v : Word) (s : State) :
    (v.getLsbD 3 = true ∧ writeStatus v s = s.clearSticky) ∨ (v.getLsbD 3 = false ∧ writeStatus v s = s) := by
  cases h : v.getLsbD 3
  · exact .inr ⟨rfl, by rw [writeStatus, h]; rfl⟩
  · exact .inl ⟨rfl, by rw [writeStatus, h]; rfl⟩

/-! ### The MAC engine's byte step -/

@[simp] theorem chainIfFull_rk (m : MacContext) : (chainIfFull m).rk = m.rk := by unfold chainIfFull; split <;> rfl
@[simp] theorem chainIfFull_nr (m : MacContext) : (chainIfFull m).nr = m.nr := by unfold chainIfFull; split <;> rfl
@[simp] theorem chainIfFull_buf (m : MacContext) : (chainIfFull m).buf = m.buf := by unfold chainIfFull; split <;> rfl
@[simp] theorem chainIfFull_mstate (m : MacContext) : (chainIfFull m).mstate = m.mstate := by
  unfold chainIfFull; split <;> rfl

/-- After the first half of `Absorb` there is room for a byte. -/
theorem chainIfFull_blen_lt (m : MacContext) : (chainIfFull m).blen.val < 16 := by
  unfold chainIfFull
  split
  · show (0 : Nat) < 16
    decide
  · next h =>
    have := m.blen.isLt
    have : m.blen.val ≠ 16 := fun e => h (Fin.ext e)
    omega

@[simp] theorem putByte_rk (m : MacContext) (b : Byte) : (putByte m b).rk = m.rk := by unfold putByte; split <;> rfl
@[simp] theorem putByte_nr (m : MacContext) (b : Byte) : (putByte m b).nr = m.nr := by unfold putByte; split <;> rfl
@[simp] theorem putByte_x (m : MacContext) (b : Byte) : (putByte m b).x = m.x := by unfold putByte; split <;> rfl
@[simp] theorem putByte_mstate (m : MacContext) (b : Byte) : (putByte m b).mstate = m.mstate := by
  unfold putByte; split <;> rfl

theorem putByte_of_lt {m : MacContext} (h : m.blen.val < 16) (b : Byte) :
    putByte m b = { m with buf := m.buf.set m.blen.val b h, blen := ⟨m.blen.val + 1, by omega⟩ } := dif_pos h

@[simp] theorem absorb_rk (m : MacContext) (b : Byte) : (absorb m b).rk = m.rk := by simp [absorb]
@[simp] theorem absorb_nr (m : MacContext) (b : Byte) : (absorb m b).nr = m.nr := by simp [absorb]
@[simp] theorem absorb_mstate (m : MacContext) (b : Byte) : (absorb m b).mstate = m.mstate := by simp [absorb]

/-- `Absorb` when BUF is full: the buffered block is chained and the byte starts the next one. -/
theorem absorb_full {m : MacContext} (h : m.blen = 16) (b : Byte) :
    absorb m b = { m with x := cipher m.rk (xorBytes m.x m.buf), buf := m.buf.set 0 b, blen := 1 } := by
  simp [absorb, chainIfFull, h, putByte]

/-- `Absorb` when BUF has room: the byte is buffered. -/
theorem absorb_room {m : MacContext} (h : m.blen.val < 16) (b : Byte) :
    absorb m b = { m with buf := m.buf.set m.blen.val b h, blen := ⟨m.blen.val + 1, by omega⟩ } := by
  have hne : m.blen ≠ 16 := fun e => by rw [e] at h; exact absurd h (by decide)
  rw [absorb, chainIfFull, if_neg hne, putByte_of_lt h]

@[simp] theorem absorbAll_nil (m : MacContext) : absorbAll m [] = m := rfl
@[simp] theorem absorbAll_cons (m : MacContext) (b : Byte) (l : List Byte) :
    absorbAll m (b :: l) = absorbAll (absorb m b) l := rfl
theorem absorbAll_append (m : MacContext) (k l : List Byte) :
    absorbAll m (k ++ l) = absorbAll (absorbAll m k) l := List.foldl_append ..

/-- What `Absorb` keeps, whatever bytes arrive. -/
theorem absorbAll_keeps (m : MacContext) (l : List Byte) :
    (absorbAll m l).rk = m.rk ∧ (absorbAll m l).nr = m.nr ∧ (absorbAll m l).mstate = m.mstate := by
  induction l generalizing m with
  | nil => exact ⟨rfl, rfl, rfl⟩
  | cons b l ih => simpa using ih (absorb m b)

@[simp] theorem absorbAll_rk (m : MacContext) (l : List Byte) : (absorbAll m l).rk = m.rk := (absorbAll_keeps m l).1
@[simp] theorem absorbAll_nr (m : MacContext) (l : List Byte) : (absorbAll m l).nr = m.nr := (absorbAll_keeps m l).2.1
@[simp] theorem absorbAll_mstate (m : MacContext) (l : List Byte) : (absorbAll m l).mstate = m.mstate :=
  (absorbAll_keeps m l).2.2

/-! ### The start of a MAC computation. Cite these (or simp with them) where a field of `restartMac` is wanted: `rfl` between
such a field and a call of keyExpansion or cipher sends the kernel into the body of that function. -/

@[simp] theorem restartMac_rk (m : MacContext) : (restartMac m).rk = m.rk := rfl
@[simp] theorem restartMac_nr (m : MacContext) : (restartMac m).nr = m.nr := rfl
@[simp] theorem restartMac_x (m : MacContext) : (restartMac m).x = zeroBlock := rfl
@[simp] theorem restartMac_buf (m : MacContext) : (restartMac m).buf = zeroBlock := rfl
@[simp] theorem restartMac_blen (m : MacContext) : (restartMac m).blen = 0 := rfl
@[simp] theorem restartMac_mstate (m : MacContext) : (restartMac m).mstate = .fresh := rfl

/-- MSTATE has no part in the tag or in the absorbing of bytes. -/
@[simp] theorem tag_with_mstate (m : MacContext) (z : MacState) : tag { m with mstate := z } = tag m := rfl

theorem absorb_with_mstate (m : MacContext) (z : MacState) (b : Byte) :
    absorb { m with mstate := z } b = { absorb m b with mstate := z } := by
  unfold absorb putByte chainIfFull
  by_cases h : m.blen = 16 <;> simp only [h, if_true, if_false] <;> split <;> rfl

/-! ### The port -/

/-- The outcome of a command word, by its verdict. -/
theorem command_cases (w : Word) (s : State) :
    (∃ i, decode w = .ok i ∧ command w s = exec i s) ∨
      (∃ e, decode w = .error e ∧ command w s = .next (s.failWith .illegal)) := by
  unfold command
  cases h : decode w with
  | ok i => exact .inl ⟨i, rfl, rfl⟩
  | error e => exact .inr ⟨e, rfl, rfl⟩

theorem completeWrite_eq_next {n : Nat} {o : Host.Outcome State Fault Refusal} {t : State}
    (h : completeWrite n o = .next t) : ∃ u, o = .next u ∧ t = u.complete n none := by
  cases o with
  | next u => exact ⟨u, rfl, by cases h; rfl⟩
  | fault f => cases h
  | refused r => cases h

/-- What a read of an accepted register does. -/
theorem busAccess_read {a : Access} {r : Reg} {s : State} (hs : s.inReset = false) (hr : acceptedReg a = some r)
    (hk : a.kind = .read) : busAccess a s = .next (s.complete a.master (some (readReg r s))) := by
  simp [busAccess, hs, hr, accessReg, hk]

/-- What a write of an accepted register does. -/
theorem busAccess_write {a : Access} {r : Reg} {v : Word} {s : State} (hs : s.inReset = false)
    (hr : acceptedReg a = some r) (hk : a.kind = .write v) :
    busAccess a s = completeWrite a.master (writeReg r v s) := by
  simp [busAccess, hs, hr, accessReg, hk]

/-- Everything an access that completes can have done: reset is not asserted, the block accepts the access, and it was a
read or the write of a register. -/
theorem busAccess_eq_next {a : Access} {s t : State} (h : busAccess a s = .next t) :
    s.inReset = false ∧ ∃ r, acceptedReg a = some r ∧
      ((a.kind = .read ∧ t = s.complete a.master (some (readReg r s))) ∨
        ∃ v u, a.kind = .write v ∧ writeReg r v s = .next u ∧ t = u.complete a.master none) := by
  unfold busAccess at h
  split at h
  · cases h
  · next hs =>
    refine ⟨by simpa using hs, ?_⟩
    split at h
    · cases h
    · next r hr =>
      refine ⟨r, hr, ?_⟩
      unfold accessReg at h
      split at h
      · next hk => exact .inl ⟨hk, by cases h; rfl⟩
      · next v hk =>
        obtain ⟨u, hu, ht⟩ := completeWrite_eq_next h
        exact .inr ⟨v, u, hk, hu, ht⟩

/-- Everything a host action can have done when it answers a next state. -/
theorem hostAction_eq_next {h : HostAction} {s t : State} (e : hostAction h s = .next t) :
    (∃ a, h = .access a ∧ busAccess a s = .next t) ∨ (∃ p, h = .resetAssert p ∧ t = s.hardwareReset true) ∨
      (h = .resetRelease ∧ ((s.inReset = true ∧ t = s.hardwareReset false) ∨ (s.inReset = false ∧ t = s))) := by
  cases h with
  | access a => exact .inl ⟨a, rfl, e⟩
  | resetAssert p => exact .inr (.inl ⟨p, rfl, by cases e; rfl⟩)
  | resetRelease =>
    refine .inr (.inr ⟨rfl, ?_⟩)
    cases hs : s.inReset <;> simp [hostAction, hs] at e ⊢ <;> exact e.symm

/-- The two shapes of a step. -/
theorem step_cases (s : State) :
    (s.port.pending = [] ∧ step s = .next s) ∨
      ∃ h rest, s.port.pending = h :: rest ∧ step s = hostAction h (s.setPending rest) := by
  unfold step
  cases e : s.port.pending with
  | nil => exact .inl ⟨rfl, rfl⟩
  | cons h rest => exact .inr ⟨h, rest, rfl, rfl⟩

/-- The step that follows `withFetchWord` is the write of the word to CMD. -/
theorem step_withFetchWord (s : State) (nbits w : Nat) :
    step (s.withFetchWord nbits w) =
      completeWrite 0 (command (BitVec.ofNat 32 (w % 2 ^ nbits)) { s with inReset := false }) := rfl

end Sys2Proof.Machine
end

