-- ==== Sys2Proof/Laws/PerInstr.lean ====
section
/-! SUPPORT. The family EncodedFields of LAWS.json: what the fields of a well-formed command's word hold (30_encoding.md R51
to R55), one lemma per constructor. -/

namespace Sys2Proof.Laws.EncodedFields

/-- The word of a well-formed command has RSV = 0, its OP value in OP, and in LEN a count that only MAC_INPUT has. -/
def Statement (i : Instr) : Prop :=
  i.wf = true →
    rsvField (encode i) = 0 ∧ opField (encode i) = opCode i ∧
      ((lenField (encode i)).toNat ≠ 0 → ∃ len, i = .macInput len ∧ (lenField (encode i)).toNat = len)

theorem keyLoad : Statement .keyLoad := fun _ => ⟨by decide, by decide, fun h => absurd rfl h⟩
theorem enc : Statement .enc := fun _ => ⟨by decide, by decide, fun h => absurd rfl h⟩
theorem dec : Statement .dec := fun _ => ⟨by decide, by decide, fun h => absurd rfl h⟩
theorem macInit : Statement .macInit := fun _ => ⟨by decide, by decide, fun h => absurd rfl h⟩
theorem macFinal : Statement .macFinal := fun _ => ⟨by decide, by decide, fun h => absurd rfl h⟩
theorem macReset : Statement .macReset := fun _ => ⟨by decide, by decide, fun h => absurd rfl h⟩

theorem macInput (len : Nat) : Statement (.macInput len) := by
  intro h
  have hl : len < 32 := by simpa [Instr.wf] using h
  have fields : ∀ l : Fin 32, rsvField (encode (.macInput l.val)) = 0 ∧
      opField (encode (.macInput l.val)) = 5 ∧ (lenField (encode (.macInput l.val))).toNat = l.val := by decide
  obtain ⟨a, b, c⟩ := fields ⟨len, hl⟩
  exact ⟨a, b, fun _ => ⟨len, rfl, c⟩⟩

end Sys2Proof.Laws.EncodedFields
end

