-- ==== Sys2Proof/Tests/Slice0.lean ====
section
/-! SUPPORT. The model's own tests: well-formedness, decoding, one step of each command and of the bus, and a witness for the
hypotheses of each statement. Expected values come from spec/95_test_vectors.md and from the rules named. -/

namespace Sys2Proof.Machine.Tests

/-! ### States the tests start from -/

/-- The source's test key (95_test_vectors.md 1.1). -/
def testKey : Block := blockOfBits 0x2b7e151628aed2a6abf7158809cf4f3c

/-- The key of FIPS-197 C.1 (95_test_vectors.md 1.3). -/
def fipsKey : Block := blockOfBits 0x000102030405060708090a0b0c0d0e0f

/-- Reset state with the key in KEY. -/
def withKey (k : Block) : State := { State.reset with key := k }

/-- A cipher context loaded with the key, DATA set. -/
def cipherReady (k d : Block) : State :=
  { State.reset with key := k, data := d, cipherCtx := { rk := keyExpansion k, nr := 10, valid := true } }

/-- A MAC context under the test key in a lifecycle state, DATA set. -/
def macReady (st : MacState) (x buf : Block) (blen : Fin 17) (d : Block) : State :=
  { State.reset with
    data := d
    macCtx := { rk := keyExpansion testKey, nr := 10, x := x, buf := buf, blen := blen, mstate := st } }

/-- A MAC context in a lifecycle state, the rest as after reset. -/
def inMacState (st : MacState) : State := { State.reset with macCtx := { MacContext.reset with mstate := st } }

/-- A state with the actions pending. -/
def pendingAt (s : State) (l : List HostAction) : State := s.setPending l

/-- A 32-bit access of master 0. -/
def access32 (offset : BitVec 6) (k : AccessKind) : Access := { master := 0, offset := offset, bytes := 4, kind := k }

/-- The STATUS word of an outcome's next state. -/
def statusAfter (o : Host.Outcome State Fault Refusal) : Option Word := (outcomeState o).map statusWord

/-- DATA of an outcome's next state. -/
def dataAfter (o : Host.Outcome State Fault Refusal) : Option Block := (outcomeState o).map (·.data)

/-! ### Well-formedness: the one check refuses -/

theorem test_wf_macInput_32 : (Instr.macInput 32).wf = false := by decide
theorem test_wf_macInput_31 : (Instr.macInput 31).wf = true := by decide

/-! ### Decoding: words written out bit by bit from R51 and R53 (RSV 23 bits, LEN 5 bits, OP 4 bits) -/

theorem test_decode_keyLoad : decode 0b00000000000000000000000_00000_0001 = .ok .keyLoad := by decide
theorem test_decode_enc : decode 0b00000000000000000000000_00000_0010 = .ok .enc := by decide
theorem test_decode_dec : decode 0b00000000000000000000000_00000_0011 = .ok .dec := by decide
theorem test_decode_macInit : decode 0b00000000000000000000000_00000_0100 = .ok .macInit := by decide
theorem test_decode_macInput16 : decode 0b00000000000000000000000_10000_0101 = .ok (.macInput 16) := by decide
theorem test_decode_macInput31 : decode 0b00000000000000000000000_11111_0101 = .ok (.macInput 31) := by decide
theorem test_decode_macFinal : decode 0b00000000000000000000000_00000_0110 = .ok .macFinal := by decide
theorem test_decode_macReset : decode 0b00000000000000000000000_00000_0111 = .ok .macReset := by decide
/-- 95_test_vectors.md 2.5: OP 0, OP 8, OP F, LEN on OP 1, LEN on OP 6, RSV bit 9, RSV bit 31. -/
theorem test_decode_illegal :
    decode 0x00000000 = .error .reservedOp ∧ decode 0x00000008 = .error .reservedOp ∧
      decode 0x0000000f = .error .reservedOp ∧ decode 0x00000011 = .error .lenNotZero ∧
      decode 0x00000106 = .error .lenNotZero ∧ decode 0x00000205 = .error .reservedBits ∧
      decode 0x80000002 = .error .reservedBits := by decide
theorem test_decodeTableWord : decodeTableWord 32 0x105 = some (.macInput 16) := by decide

/-! ### The commands (95_test_vectors.md 1.3, 2.1 to 2.3) -/

/-- FIPS-197 A.1: RK[1] and RK[10] of the test key. -/
theorem test_keyLoad_schedule :
    (outcomeState (exec .keyLoad (withKey testKey))).map (fun s => (s.cipherCtx.rk[1], s.cipherCtx.rk[10])) =
      some (blockOfBits 0xa0fafe1788542cb123a339392a6c7605, blockOfBits 0xd014f9a8c9ee2589e13f0cc8b6630ca6) := by
  decide +kernel
/-- R86: STATUS reads 0x00000010 from reset state. -/
theorem test_keyLoad_status : statusAfter (exec .keyLoad (withKey testKey)) = some 0x00000010 := by decide
/-- FIPS-197 Appendix B. -/
theorem test_enc_fips_b :
    dataAfter (exec .enc (cipherReady testKey (blockOfBits 0x3243f6a8885a308d313198a2e0370734))) =
      some (blockOfBits 0x3925841d02dc09fbdc118597196a0b32) := by decide +kernel
/-- 2.2: ENC with no key loaded. -/
theorem test_enc_noKey : statusAfter (exec .enc State.reset) = some 0x0000000c := by decide
/-- FIPS-197 C.1, decryption. -/
theorem test_dec_fips_c1 :
    dataAfter (exec .dec (cipherReady fipsKey (blockOfBits 0x69c4e0d86a7b0430d8cdb78070b4c55a))) =
      some (blockOfBits 0x00112233445566778899aabbccddeeff) := by decide +kernel
theorem test_dec_noKey : statusAfter (exec .dec State.reset) = some 0x0000000c := by decide
/-- R95: STATUS reads 0x00000020 from reset state. -/
theorem test_macInit_status : statusAfter (exec .macInit (withKey testKey)) = some 0x00000020 := by decide
/-- R96's example: the second MAC_INPUT chains the first block and buffers four bytes. -/
theorem test_macInput_chains :
    (outcomeState (exec (.macInput 4) (macReady .accumulating zeroBlock
        (blockOfBits 0x6bc1bee22e409f96e93d7e117393172a) 16 (blockOfBits 0xae2d8a572e409f96e93d7e117393172a)))).map
      (fun s => (s.macCtx.x, s.macCtx.blen.val)) =
      some (blockOfBits 0x3ad77bb40d7a3660a89ecaf32466ef97, 4) := by decide +kernel
/-- 2.5: MAC_INPUT 17 in Finalized reports CAPACITY, MAC_INPUT 16 there MISUSE, MAC_INPUT 0 in Fresh leaves Fresh. -/
theorem test_macInput_errors :
    statusAfter (exec (.macInput 17) (inMacState .finalized)) = some 0x0000006a ∧
      statusAfter (exec (.macInput 16) (inMacState .finalized)) = some 0x0000006b ∧
      statusAfter (exec (.macInput 16) (inMacState .unkeyed)) = some 0x0000000c ∧
      statusAfter (exec (.macInput 0) (inMacState .fresh)) = some 0x00000020 := by decide
/-- The source's tag for 20 bytes (1.1), with X, BUF and BLEN of program P2. -/
theorem test_macFinal_tag20 :
    dataAfter (exec .macFinal (macReady .accumulating (blockOfBits 0x3ad77bb40d7a3660a89ecaf32466ef97)
        (blockOfBits 0xae2d8a572e409f96e93d7e117393172a) 4 zeroBlock)) =
      some (blockOfBits 0x7d85449ea6ea19c823a7bf78837dfade) := by decide +kernel
/-- 2.5: MAC_FINAL in Finalized and in Unkeyed. -/
theorem test_macFinal_errors :
    statusAfter (exec .macFinal (inMacState .finalized)) = some 0x0000006b ∧
      statusAfter (exec .macFinal State.reset) = some 0x0000000c := by decide
/-- R98: from Finalized to Fresh, BLEN 0. -/
theorem test_macReset_rearms :
    (outcomeState (exec .macReset (macReady .finalized testKey testKey 7 zeroBlock))).map
      (fun s => (s.macCtx.mstate, s.macCtx.blen.val, statusWord s)) = some (.fresh, 0, 0x00000020) := by decide
theorem test_macReset_noKey : statusAfter (exec .macReset State.reset) = some 0x0000000c := by decide

/-! ### The functions (95_test_vectors.md 2.1, 2.3) -/

theorem test_gmul : gmul 0x57 0x83 = 0xc1 ∧ gmul 0x57 0x13 = 0xfe := by decide +kernel
theorem test_shiftRows :
    shiftRows fipsKey = blockOfBits 0x00050a0f04090e03080d02070c01060b ∧
      invShiftRows fipsKey = blockOfBits 0x000d0a0704010e0b0805020f0c090603 := by decide +kernel
theorem test_mixColumn :
    mixColumn #v[0xdb, 0x13, 0x53, 0x45] = #v[0x8e, 0x4d, 0xa1, 0xbc] ∧
      invMixColumn #v[0x8e, 0x4d, 0xa1, 0xbc] = #v[0xdb, 0x13, 0x53, 0x45] := by decide +kernel
theorem test_sbox_formula : sbox 0x53 = 0xed ∧ affine (gfInv 0x01) = sbox 0x01 ∧ affine 0xca = sbox 0x53 := by
  decide +kernel
theorem test_dbl :
    dbl (blockOfBits 0xffffffffffffffffffffffffffffffff) = blockOfBits 0xffffffffffffffffffffffffffffff79 ∧
      dbl (blockOfBits 0x7fffffffffffffffffffffffffffffff) = blockOfBits 0xfffffffffffffffffffffffffffffffe := by
  decide +kernel

/-! ### The bus and the step (95_test_vectors.md 2.5 to 2.7) -/

/-- 2.6: a DATA word written and read back. -/
theorem test_data_word :
    (outcomeState (writeReg (.data 0) 0x00112233 State.reset)).map (fun s => (s.data[0], s.data[3], readReg (.data 0) s)) =
      some (0x00, 0x33, 0x00112233) := by decide +kernel
/-- 2.5: STATUS writes: bit 3 set clears ESTICKY and keeps ERR; bit 3 clear changes nothing. -/
theorem test_status_write :
    statusWord (writeStatus 0x00000008 (State.reset.failWith .noKey)) = 0x00000004 ∧
      statusWord (writeStatus 0xfffffff7 (State.reset.failWith .noKey)) = 0x0000000c := by decide
/-- 2.6: reserved offsets, a 16-bit access, a misaligned access; and the last accepted offset beside the first reserved one. -/
theorem test_bus_errors :
    outcomeFault (busAccess (access32 0x08 .read) State.reset) = some .busError ∧
      outcomeFault (busAccess (access32 0x30 .read) State.reset) = some .busError ∧
      outcomeFault (busAccess { access32 0x20 .read with bytes := 2 } State.reset) = some .busError ∧
      outcomeFault (busAccess (access32 0x22 .read) State.reset) = some .busError ∧
      outcomeFault (busAccess (access32 0x2C .read) State.reset) = none := by decide
/-- R130: an access while reset is asserted gets no response. -/
theorem test_access_in_reset :
    outcomeFault (busAccess (access32 0x04 .read) (State.reset.hardwareReset true)) = some .noResponseInReset := by decide
/-- 2.5: an illegal word, by a step from reset. -/
theorem test_step_illegal : statusAfter (step (State.reset.withFetchWord 32 0x11)) = some 0x00000009 := by decide
/-- 2.7: MAC_RESET after reset, by a step. -/
theorem test_step_macReset : statusAfter (step (State.reset.withFetchWord 32 0x7)) = some 0x0000000c := by decide

/-! ### Witnesses: each statement's hypotheses are met -/

theorem witness_DecodeEncodeRoundTrip : (Instr.macInput 31).wf = true ∧ Instr.enc.wf = true := by decide
theorem witness_DecodedWordIsItsEncoding : decode 0x000001f5 = .ok (.macInput 31) := by decide
/-- A legal word and a word of each illegal kind, at the ends of the fields. -/
theorem witness_DecodeFollowsFields :
    decode 0x00000007 = .ok .macReset ∧ (∃ e, decode 0x00000201 = .error e) ∧ (∃ e, decode 0x00000000 = .error e) ∧
      (∃ e, decode 0x00000008 = .error e) ∧ (∃ e, decode 0x00000011 = .error e) :=
  ⟨by decide, ⟨_, rfl⟩, ⟨_, rfl⟩, ⟨_, rfl⟩, ⟨_, rfl⟩⟩
/-- LEN 16 is in range, LEN 17 is not, and some words are illegal. -/
theorem witness_LegalWordCounts :
    decode 0x00000105 = .ok (.macInput 16) ∧ decode 0x00000115 = .ok (.macInput 17) ∧ ¬∃ i, decode 0x00000008 = .ok i :=
  ⟨by decide, by decide, fun ⟨_, h⟩ => by cases h⟩
theorem witness_StepRunsDecodedCommand : ∃ (s : State) (rest : List HostAction), s.inReset = false ∧
    decode 0x00000005 = .ok (.macInput 0) ∧
    s.port.pending = .access { master := 1, offset := 0x00, bytes := 4, kind := .write 0x00000005 } :: rest :=
  ⟨pendingAt State.reset [.access { access32 0x00 (.write 0x00000005) with master := 1 }], [], rfl, by decide, rfl⟩
theorem witness_StepOnIllegalWord : ∃ (s : State) (rest : List HostAction), s.inReset = false ∧
    decode 0xffffffff = .error .reservedBits ∧
    s.port.pending = .access { master := 0, offset := 0x00, bytes := 4, kind := .write 0xffffffff } :: rest :=
  ⟨pendingAt State.reset [.access (access32 0x00 (.write 0xffffffff))], [], rfl, by decide, rfl⟩
theorem witness_IdleBlockKeepsItsState : State.reset.port.pending = [] := rfl
/-- Each clause at a boundary: width, alignment, the two single reserved offsets, the first and last of the reserved range,
and the last accepted offset. -/
theorem witness_BusErrorsExactly : State.reset.inReset = false ∧
    acceptedReg { access32 0x00 .read with bytes := 8 } = none ∧ acceptedReg (access32 0x01 .read) = none ∧
    acceptedReg (access32 0x08 .read) = none ∧ acceptedReg (access32 0x0C .read) = none ∧
    acceptedReg (access32 0x30 .read) = none ∧ acceptedReg (access32 0x3C .read) = none ∧
    acceptedReg (access32 0x2C .read) = some (.data 3) := by decide
theorem witness_ReadsReturnRegisterValues : (cipherReady testKey fipsKey).inReset = false := rfl
theorem witness_WritesReplaceNamedBytes : (inMacState .accumulating).inReset = false := rfl
theorem witness_WordReadsBackAsWritten : ∃ t u, writeReg (.data 3) 0x01020304 State.reset = .next t ∧
    writeReg (.key 3) 0x01020304 State.reset = .next u := ⟨_, _, rfl, rfl⟩
theorem witness_RegisterWritesIdempotent : Reg.status ≠ .cmd ∧ Reg.key 0 ≠ .cmd ∧ Reg.data 3 ≠ .cmd := by decide
/-- A failing command, a successful one, and the three actions that clear ESTICKY. -/
theorem witness_StickyBitSetAndCleared :
    (∃ t, exec .enc State.reset = .next t ∧ t.err ≠ .ok) ∧ (∃ t, exec .macInit State.reset = .next t ∧ t.err = .ok) ∧
      (∃ t, command 0x00000000 State.reset = .next t ∧ t.err ≠ .ok) ∧
      (∃ t, command 0x00000004 State.reset = .next t ∧ t.err = .ok) ∧
      ∀ h ∈ ([.access (access32 0x04 (.write 0x00000008)), .resetAssert none] : List HostAction),
        ∃ t, step (pendingAt (State.reset.failWith .misuse) [h]) = .next t ∧
          (pendingAt (State.reset.failWith .misuse) [h]).esticky = true ∧ t.esticky = false :=
  ⟨⟨_, rfl, by decide⟩, ⟨_, rfl, rfl⟩, ⟨_, rfl, by decide⟩, ⟨_, rfl, rfl⟩, by
    intro h hm
    fin_cases hm
    · exact ⟨_, rfl, rfl, rfl⟩
    · exact ⟨_, rfl, rfl, rfl⟩⟩
/-- The clearing by a release, in a state of the asserted reset input that no run reaches. -/
theorem witness_StickyBitCleared_by_release :
    ∃ t, step (pendingAt { State.reset with esticky := true, inReset := true } [.resetRelease]) = .next t ∧
      t.esticky = false := ⟨_, rfl, rfl⟩
/-- The cipher context changes by KEY_LOAD, the MAC context by MAC_INIT, and by reset. -/
theorem witness_OnlyCommandsAndResetChangeContexts :
    (∃ t, step (State.reset.withFetchWord 32 1) = .next t ∧ t.cipherCtx.valid ≠ State.reset.cipherCtx.valid) ∧
      (∃ t, step (State.reset.withFetchWord 32 4) = .next t ∧ t.macCtx.mstate ≠ State.reset.macCtx.mstate) ∧
      ∃ t, step (pendingAt (inMacState .fresh) [.resetAssert none]) = .next t ∧
        t.macCtx.mstate ≠ (inMacState .fresh).macCtx.mstate :=
  ⟨⟨_, rfl, by decide⟩, ⟨_, rfl, by decide⟩, ⟨_, rfl, by decide⟩⟩
/-- Two states that differ in KEY and in an unread schedule have the same DATA and STATUS. -/
theorem witness_ReadsRevealDataAndStatusOnly :
    State.reset.data = (withKey testKey).data ∧ statusWord State.reset = statusWord (withKey testKey) := ⟨rfl, by decide⟩
theorem witness_FailureChangesOnlyStatus :
    (∃ t, exec .macFinal State.reset = .next t ∧ t.err ≠ .ok) ∧ ∃ t, exec .keyLoad State.reset = .next t ∧ t.err = .ok :=
  ⟨⟨_, rfl, by decide⟩, ⟨_, rfl, rfl⟩⟩
theorem witness_ErrorCausesExact :
    (∃ t, exec (.macInput 17) State.reset = .next t ∧ t.err = .capacity) ∧
      (∃ t, exec (.macInput 16) (inMacState .finalized) = .next t ∧ t.err = .misuse) ∧
      ∃ t, exec (.macInput 16) State.reset = .next t ∧ t.err = .noKey := ⟨⟨_, rfl, rfl⟩, ⟨_, rfl, rfl⟩, ⟨_, rfl, rfl⟩⟩
/-- MAC_INPUT at LEN 0, 1, 16 and 17 from Fresh, and reset. -/
theorem witness_MacStateFollowsTheTable :
    (∃ t, exec (.macInput 0) (inMacState .fresh) = .next t) ∧ (∃ t, exec (.macInput 1) (inMacState .fresh) = .next t) ∧
      (∃ t, exec (.macInput 16) (inMacState .fresh) = .next t) ∧
      (∃ t, exec (.macInput 17) (inMacState .fresh) = .next t) ∧
      (∃ t, hostAction (.resetAssert none) (inMacState .finalized) = .next t) ∧
      ∃ t, step (State.reset.withFetchWord 32 4) = .next t ∧ t.macCtx.mstate ≠ State.reset.macCtx.mstate :=
  ⟨⟨_, rfl⟩, ⟨_, rfl⟩, ⟨_, rfl⟩, ⟨_, rfl⟩, ⟨_, rfl⟩, ⟨_, rfl, by decide⟩⟩
theorem witness_EncEncryptsDataInPlace :
    (cipherReady testKey fipsKey).cipherCtx.valid = true ∧ State.reset.cipherCtx.valid = false := ⟨rfl, rfl⟩
theorem witness_DecDecryptsDataInPlace :
    (cipherReady testKey fipsKey).cipherCtx.valid = true ∧ State.reset.cipherCtx.valid = false := ⟨rfl, rfl⟩
theorem witness_EncThenDecRestoresData : (cipherReady fipsKey testKey).cipherCtx.valid = true := rfl
/-- Every clause: in range in Fresh and Accumulating, over range, Unkeyed, Finalized, at LEN 0, 16, 17. -/
theorem witness_MacInputAbsorbsData :
    0 ≤ 16 ∧ 16 ≤ 16 ∧ 16 < 17 ∧ 31 < 32 ∧ (inMacState .fresh).macCtx.mstate = .fresh ∧
      (inMacState .accumulating).macCtx.mstate = .accumulating ∧ (inMacState .unkeyed).macCtx.mstate = .unkeyed ∧
      (inMacState .finalized).macCtx.mstate = .finalized := by decide
theorem witness_MacFinalWritesTheTag :
    (inMacState .fresh).macCtx.mstate = .fresh ∧ (inMacState .accumulating).macCtx.mstate = .accumulating ∧
      (inMacState .unkeyed).macCtx.mstate = .unkeyed ∧ (inMacState .finalized).macCtx.mstate = .finalized := by decide
theorem witness_MacResetKeepsTheKey :
    (inMacState .finalized).macCtx.mstate ≠ .unkeyed ∧ (inMacState .unkeyed).macCtx.mstate = .unkeyed := by decide
/-- DATA blocks that agree in the first 7 bytes and differ in the next. -/
theorem witness_MacInputIgnoresDataBeyondLen :
    ∃ t, (∀ i : Fin 16, i.val < 7 → (fipsKey.set 7 0xff)[i] = fipsKey[i]) ∧ fipsKey.set 7 0xff ≠ fipsKey ∧
      exec (.macInput 7) (macReady .fresh zeroBlock zeroBlock 0 fipsKey) = .next t :=
  ⟨_, by decide +kernel, by decide +kernel, rfl⟩
theorem witness_MacInputChainsAtMostOneBlock :
    ∃ t, exec (.macInput 16) (macReady .accumulating zeroBlock testKey 16 fipsKey) = .next t := ⟨_, rfl⟩
theorem witness_CipherCommandsFrame :
    (∃ t, exec .keyLoad State.reset = .next t) ∧ (∃ t, exec .enc (cipherReady testKey fipsKey) = .next t) ∧
      ∃ t, exec .dec (cipherReady testKey fipsKey) = .next t := ⟨⟨_, rfl⟩, ⟨_, rfl⟩, ⟨_, rfl⟩⟩
theorem witness_MacCommandsFrame :
    (∃ t, exec .macInit State.reset = .next t) ∧ (∃ t, exec (.macInput 16) (inMacState .fresh) = .next t) ∧
      (∃ t, exec .macFinal (inMacState .fresh) = .next t) ∧ ∃ t, exec .macReset (inMacState .finalized) = .next t :=
  ⟨⟨_, rfl⟩, ⟨_, rfl⟩, ⟨_, rfl⟩, ⟨_, rfl⟩⟩
theorem witness_ContextsAreIndependent :
    (∃ t, exec .enc (cipherReady testKey fipsKey) = .next t) ∧ ∃ t, exec .macFinal (inMacState .accumulating) = .next t :=
  ⟨⟨_, rfl⟩, ⟨_, rfl⟩⟩
theorem witness_LoadedKeyIsASnapshot :
    Instr.enc ≠ .keyLoad ∧ Instr.enc ≠ .macInit ∧ ∃ t, exec .enc (cipherReady testKey fipsKey) = .next t :=
  ⟨by decide, by decide, _, rfl⟩
theorem witness_SboxIsAffineOfInverse : (0x53 : Byte) ≠ 0 := by decide
/-- The first and the last word of the recurrence. -/
theorem witness_KeyExpansionRecurrence : 4 ≤ (4 : Fin 44).val ∧ 4 ≤ (43 : Fin 44).val := by decide
/-- Two blocks that agree in the first 15 bytes only; no byte at all for `n = 0`. -/
theorem witness_PadKeepsTheFirstBytes :
    15 < 16 ∧ 0 < 16 ∧ (∀ i : Fin 16, i.val < 15 → (fipsKey.set 15 0xff)[i] = fipsKey[i]) ∧ fipsKey.set 15 0xff ≠ fipsKey := by
  decide +kernel
theorem witness_AbsorbedStreamIsCbcChain :
    (macReady .fresh zeroBlock testKey 0 testKey).macCtx.x = zeroBlock ∧
      (macReady .fresh zeroBlock testKey 0 testKey).macCtx.blen = 0 := ⟨rfl, rfl⟩
/-- Two different splits of 20 bytes, one with an empty chunk, at the largest chunk size. -/
theorem witness_ChunkingDoesNotMatter :
    let c : List (List Byte) := [List.replicate 16 1, [], List.replicate 4 1]
    let d : List (List Byte) := [List.replicate 7 1, List.replicate 13 1]
    (∀ k ∈ c, k.length ≤ 16) ∧ (∀ k ∈ d, k.length ≤ 16) ∧ c.flatten = d.flatten ∧ c ≠ d ∧
      (inMacState .fresh).macCtx.mstate = .fresh := by decide
theorem witness_TagIsAesCmacOfTheStream : ∀ k ∈ ([List.replicate 16 1, [], [2]] : List (List Byte)), k.length ≤ 16 := by
  decide
theorem witness_MacResetLikeMacInit :
    (∀ k ∈ ([List.replicate 16 1, [2]] : List (List Byte)), k.length ≤ 16) ∧
      (macReady .finalized testKey testKey 3 zeroBlock).macCtx.mstate ≠ .unkeyed ∧
      (macReady .finalized testKey testKey 3 zeroBlock).macCtx.rk = keyExpansion (withKey testKey).key :=
  ⟨by decide, by decide, rfl⟩
/-- The invariant's hypotheses: the reset state satisfies it and steps. -/
theorem witness_StepKeepsInvariant :
    Inv (State.reset.withFetchWord 32 4) ∧ ∃ t, step (State.reset.withFetchWord 32 4) = .next t :=
  ⟨⟨nofun, ⟨fun h => absurd rfl h, nofun, nofun⟩, nofun⟩, _, rfl⟩
/-- Two states that differ in what R126 leaves unspecified. -/
theorem witness_HiddenStateIsUnobservable :
    Indistinguishable State.reset
        { State.reset with macCtx := { MacContext.reset with x := testKey, blen := 9 } } ∧
      (9 : Fin 17) ≠ MacContext.reset.blen :=
  ⟨⟨rfl, rfl, rfl, rfl, ⟨rfl, nofun⟩, ⟨rfl, fun h => absurd rfl h, fun h => by cases h <;> contradiction⟩, rfl, rfl⟩, by
    decide⟩
/-- A system of two instances with an access to the first, at the ends of its window, and one outside both. -/
theorem witness_InstancesShareNoState :
    let sys : System := [{ base := 0x1000, block := State.reset }, { base := 0x1040, block := State.reset }]
    systemWf sys = true ∧ (∃ t, systemAccess 0x1000 0 4 (.write 0x00000004) sys = .next t) ∧
      (∃ t, systemAccess 0x102C 0 4 .read sys = .next t) ∧ (∃ t, systemAccess 0x1060 0 4 (.write 7) sys = .next t) ∧
      ∃ t, systemAccess 0x1080 0 4 .read sys = .next t :=
  ⟨by decide, ⟨_, rfl⟩, ⟨_, rfl⟩, ⟨_, rfl⟩, ⟨_, rfl⟩⟩
theorem witness_MastersAreEqual : ∃ t, busAccess (access32 0x00 (.write 0x00000004)) State.reset = .next t := ⟨_, rfl⟩
theorem witness_PseudoInstructionsDoWhatTheySay : (withKey fipsKey).inReset = false ∧ (Instr.macInput 31).wf = true :=
  ⟨rfl, by decide⟩

end Sys2Proof.Machine.Tests
end

section
/-! PROOFS. What a read of each register of the window returns (20_memory.md R38), and that a read reveals DATA and the
STATUS word alone (00_scope.md R8, 10_state.md R30). -/

namespace Sys2Proof.Machine

@[simp] theorem readReg_cmd (s : State) : readReg .cmd s = 0 := rfl
@[simp] theorem readReg_status (s : State) : readReg .status s = statusWord s := rfl
@[simp] theorem readReg_key (j : Fin 4) (s : State) : readReg (.key j) s = 0 := rfl
@[simp] theorem readReg_data (j : Fin 4) (s : State) : readReg (.data j) s = getWord s.data j := rfl

/-- Settles O17, register by register: CMD and KEY read as 0 in every state, STATUS as its word, DATA as its bytes. -/
theorem readsRevealDataAndStatusOnly : Obligations.ReadsRevealDataAndStatusOnly := by
  intro r s t hdata hstatus
  cases r with
  | cmd => rw [readReg_cmd, readReg_cmd]
  | status => rw [readReg_status, readReg_status, hstatus]
  | key j => rw [readReg_key, readReg_key]
  | data j => rw [readReg_data, readReg_data, hdata]

end Sys2Proof.Machine
end

section
/-! PROOFS. What a command does, said once over all seven: the first check that applies decides between the failure of
60_exceptions.md R114 and the command's effect followed by R115. Frames and independence follow from this (10_state.md R15,
R16, R25, R26; 70_reset_and_hazards.md R135). -/

namespace Sys2Proof.Machine

/-- The MAC context after MAC_INPUT of `len` bytes of DATA in a state that takes input (R96). -/
def inputContext (m : MacContext) (data : Block) (len : Nat) : MacContext :=
  if len > 0 then { absorbAll m (inputBytes data len) with mstate := .accumulating }
  else absorbAll m (inputBytes data len)

/-- What a command that passes its checks does to the state, before R115 sets ERR to 0 (R86 to R88, R95 to R98). -/
def commandEffect : Instr → State → State
  | .keyLoad, s => s.setCipherCtx { rk := keyExpansion s.key, nr := 10, valid := true }
  | .enc, s => s.setData (cipher s.cipherCtx.rk s.data)
  | .dec, s => s.setData (invCipher s.cipherCtx.rk s.data)
  | .macInit, s => s.setMacCtx (restartMac { s.macCtx with rk := keyExpansion s.key, nr := 10 })
  | .macInput len, s => s.setMacCtx (inputContext s.macCtx s.data len)
  | .macFinal, s => (s.setData (tag s.macCtx)).setMacCtx { s.macCtx with mstate := .finalized }
  | .macReset, s => s.setMacCtx (restartMac s.macCtx)

/-! ### The first check that applies -/

theorem firstError_macInput_ok {len : Nat} {s : State} :
    firstError (.macInput len) s = .ok ↔ len ≤ 16 ∧ s.macCtx.mstate ≠ .unkeyed ∧ s.macCtx.mstate ≠ .finalized := by
  by_cases hl : 16 < len
  · simp [firstError, hl]
  · cases hm : s.macCtx.mstate <;> simp [firstError, hl, hm, Nat.le_of_not_lt hl]

theorem firstError_macFinal_ok {s : State} :
    firstError .macFinal s = .ok ↔ s.macCtx.mstate ≠ .unkeyed ∧ s.macCtx.mstate ≠ .finalized := by
  cases hm : s.macCtx.mstate <;> simp [firstError, hm]

theorem firstError_macReset_ok {s : State} : firstError .macReset s = .ok ↔ s.macCtx.mstate ≠ .unkeyed := by
  by_cases hm : s.macCtx.mstate = .unkeyed <;> simp [firstError, hm]

/-! ### The two ends of a command -/

/-- A command succeeds with its effect where no check applies, and fails with the first check that does (R112, R114, R115). -/
theorem exec_cases (i : Instr) (s : State) :
    (firstError i s = .ok ∧ exec i s = .next (commandEffect i s).succeed) ∨
      ∃ c, c ≠ .ok ∧ firstError i s = c ∧ exec i s = .next (s.failWith c) := by
  cases i with
  | keyLoad => exact .inl ⟨rfl, execKeyLoad_eq s⟩
  | enc =>
    obtain ⟨hv, he⟩ | ⟨hv, he⟩ := execEnc_cases s
    · exact .inl ⟨by simp [firstError, hv], he⟩
    · exact .inr ⟨.noKey, nofun, by simp [firstError, hv], he⟩
  | dec =>
    obtain ⟨hv, he⟩ | ⟨hv, he⟩ := execDec_cases s
    · exact .inl ⟨by simp [firstError, hv], he⟩
    · exact .inr ⟨.noKey, nofun, by simp [firstError, hv], he⟩
  | macInit => exact .inl ⟨rfl, execMacInit_eq s⟩
  | macInput len =>
    obtain ⟨hl, he⟩ | ⟨hl, hm, he⟩ | ⟨hl, hm, he⟩ | ⟨hl, hu, hf, he⟩ := execMacInput_cases len s
    · exact .inr ⟨.capacity, nofun, by simp [firstError, hl], he⟩
    · exact .inr ⟨.noKey, nofun, by simp [firstError, hm, Nat.not_lt.2 hl], he⟩
    · exact .inr ⟨.misuse, nofun, by simp [firstError, hm, Nat.not_lt.2 hl], he⟩
    · exact .inl ⟨firstError_macInput_ok.2 ⟨hl, hu, hf⟩, he⟩
  | macFinal =>
    obtain ⟨hm, he⟩ | ⟨hm, he⟩ | ⟨hu, hf, he⟩ := execMacFinal_cases s
    · exact .inr ⟨.noKey, nofun, by simp [firstError, hm], he⟩
    · exact .inr ⟨.misuse, nofun, by simp [firstError, hm], he⟩
    · exact .inl ⟨firstError_macFinal_ok.2 ⟨hu, hf⟩, he⟩
  | macReset =>
    obtain ⟨hm, he⟩ | ⟨hm, he⟩ := execMacReset_cases s
    · exact .inr ⟨.noKey, nofun, by simp [firstError, hm], he⟩
    · exact .inl ⟨firstError_macReset_ok.2 hm, he⟩

/-- Everything a command that answers a next state can have done. -/
theorem exec_eq_next {i : Instr} {s t : State} (h : exec i s = .next t) :
    (firstError i s = .ok ∧ t = (commandEffect i s).succeed) ∨
      ∃ c, c ≠ .ok ∧ firstError i s = c ∧ t = s.failWith c := by
  obtain ⟨hok, he⟩ | ⟨c, hc, hf, he⟩ := exec_cases i s <;> cases he.symm.trans h
  · exact .inl ⟨hok, rfl⟩
  · exact .inr ⟨c, hc, hf, rfl⟩

/-! ### ERR and ESTICKY after a command -/

theorem exec_err {i : Instr} {s t : State} (h : exec i s = .next t) : t.err = firstError i s := by
  obtain ⟨hok, rfl⟩ | ⟨c, _, hf, rfl⟩ := exec_eq_next h
  · rw [State.succeed_err, hok]
  · rw [State.failWith_err, hf]

@[simp] theorem commandEffect_esticky (i : Instr) (s : State) : (commandEffect i s).esticky = s.esticky := by
  cases i <;> rfl

/-- A failed command sets ESTICKY, a successful one keeps it (R114, R115). -/
theorem exec_esticky {i : Instr} {s t : State} (h : exec i s = .next t) :
    (t.err ≠ .ok → t.esticky = true) ∧ (t.err = .ok → t.esticky = s.esticky) := by
  obtain ⟨_, rfl⟩ | ⟨c, hc, _, rfl⟩ := exec_eq_next h
  · exact ⟨fun hne => absurd rfl hne, fun _ => commandEffect_esticky i s⟩
  · exact ⟨fun _ => rfl, fun hok => absurd hok hc⟩

theorem exec_keeps_sticky {i : Instr} {s t : State} (h : exec i s = .next t) (hs : s.esticky = true) :
    t.esticky = true := by
  by_cases hok : t.err = .ok
  · rw [(exec_esticky h).2 hok, hs]
  · exact (exec_esticky h).1 hok

/-! ### What a command leaves unchanged -/

/-- What the effect of a command keeps and no end of a command touches, the command keeps. -/
theorem exec_frame {α : Type} (f : State → α) (hsucceed : ∀ u : State, f u.succeed = f u)
    (hfail : ∀ (u : State) c, f (u.failWith c) = f u) {i : Instr} {s t : State}
    (heffect : f (commandEffect i s) = f s) (h : exec i s = .next t) : f t = f s := by
  obtain ⟨_, rfl⟩ | ⟨c, _, _, rfl⟩ := exec_eq_next h
  · rw [hsucceed, heffect]
  · exact hfail s c

theorem exec_key {i : Instr} {s t : State} (h : exec i s = .next t) : t.key = s.key :=
  exec_frame State.key (fun _ => rfl) (fun _ _ => rfl) (by cases i <;> rfl) h

theorem exec_inReset {i : Instr} {s t : State} (h : exec i s = .next t) : t.inReset = s.inReset :=
  exec_frame State.inReset (fun _ => rfl) (fun _ _ => rfl) (by cases i <;> rfl) h

theorem exec_port {i : Instr} {s t : State} (h : exec i s = .next t) : t.port = s.port :=
  exec_frame State.port (fun _ => rfl) (fun _ _ => rfl) (by cases i <;> rfl) h

/-- Only ENC, DEC and MAC_FINAL write DATA (R16). -/
theorem exec_data {i : Instr} {s t : State} (henc : i ≠ .enc) (hdec : i ≠ .dec) (hfinal : i ≠ .macFinal)
    (h : exec i s = .next t) : t.data = s.data :=
  exec_frame State.data (fun _ => rfl) (fun _ _ => rfl)
    (by
      cases i with
      | enc => exact absurd rfl henc
      | dec => exact absurd rfl hdec
      | macFinal => exact absurd rfl hfinal
      | _ => rfl)
    h

/-- Only KEY_LOAD writes the cipher context (R25). -/
theorem exec_cipherCtx {i : Instr} {s t : State} (hi : i ≠ .keyLoad) (h : exec i s = .next t) :
    t.cipherCtx = s.cipherCtx :=
  exec_frame State.cipherCtx (fun _ => rfl) (fun _ _ => rfl)
    (by cases i with | keyLoad => exact absurd rfl hi | _ => rfl) h

/-- The cipher family (R26). -/
def IsCipherCommand (i : Instr) : Prop := i = .keyLoad ∨ i = .enc ∨ i = .dec

/-- The MAC family (R26). -/
def IsMacCommand (i : Instr) : Prop := i = .macInit ∨ (∃ len, i = .macInput len) ∨ i = .macFinal ∨ i = .macReset

theorem IsMacCommand.ne_keyLoad {i : Instr} (hi : IsMacCommand i) : i ≠ .keyLoad := by
  obtain rfl | ⟨_, rfl⟩ | rfl | rfl := hi <;> nofun

/-- The cipher family does not write the MAC context (R26). -/
theorem exec_macCtx {i : Instr} {s t : State} (hi : IsCipherCommand i) (h : exec i s = .next t) :
    t.macCtx = s.macCtx :=
  exec_frame State.macCtx (fun _ => rfl) (fun _ _ => rfl) (by obtain rfl | rfl | rfl := hi <;> rfl) h

@[simp] theorem inputContext_rk (m : MacContext) (d : Block) (len : Nat) : (inputContext m d len).rk = m.rk := by
  unfold inputContext; split <;> simp
@[simp] theorem inputContext_nr (m : MacContext) (d : Block) (len : Nat) : (inputContext m d len).nr = m.nr := by
  unfold inputContext; split <;> simp

/-- Only MAC_INIT writes RK_M and NR_M (R25). -/
theorem exec_macSchedule {i : Instr} {s t : State} (hi : i ≠ .macInit) (h : exec i s = .next t) :
    t.macCtx.rk = s.macCtx.rk ∧ t.macCtx.nr = s.macCtx.nr := by
  have heffect : (commandEffect i s).macCtx.rk = s.macCtx.rk ∧ (commandEffect i s).macCtx.nr = s.macCtx.nr := by
    cases i with
    | macInit => exact absurd rfl hi
    | macInput len => exact ⟨inputContext_rk .., inputContext_nr ..⟩
    | _ => exact ⟨rfl, rfl⟩
  exact ⟨exec_frame (·.macCtx.rk) (fun _ => rfl) (fun _ _ => rfl) heffect.1 h,
    exec_frame (·.macCtx.nr) (fun _ => rfl) (fun _ _ => rfl) heffect.2 h⟩

/-- MAC_FINAL writes nothing of the MAC context but MSTATE (R97). -/
theorem exec_macFinal_accumulator {s t : State} (h : exec .macFinal s = .next t) :
    t.macCtx.x = s.macCtx.x ∧ t.macCtx.buf = s.macCtx.buf ∧ t.macCtx.blen = s.macCtx.blen :=
  ⟨exec_frame (·.macCtx.x) (fun _ => rfl) (fun _ _ => rfl) rfl h,
    exec_frame (·.macCtx.buf) (fun _ => rfl) (fun _ _ => rfl) rfl h,
    exec_frame (·.macCtx.blen) (fun _ => rfl) (fun _ _ => rfl) rfl h⟩

/-- Settles O32 by the frames of the commands. -/
theorem cipherCommandsFrame : Obligations.CipherCommandsFrame := by
  intro i s t hi h
  refine ⟨exec_key h, exec_macCtx hi h, exec_inReset h, exec_port h, ?_, fun hne => exec_cipherCtx hne h,
    exec_keeps_sticky h⟩
  rintro rfl
  exact exec_data (i := .keyLoad) nofun nofun nofun h

/-- Settles O33 by the frames of the commands. -/
theorem macCommandsFrame : Obligations.MacCommandsFrame := by
  intro i s t hi h
  refine ⟨exec_key h, exec_cipherCtx (IsMacCommand.ne_keyLoad hi) h, exec_inReset h, exec_port h, fun hne => ?_,
    fun hne => exec_macSchedule hne h, ?_, exec_keeps_sticky h⟩
  · have ⟨henc, hdec⟩ : i ≠ .enc ∧ i ≠ .dec := by obtain rfl | ⟨_, rfl⟩ | rfl | rfl := hi <;> exact ⟨nofun, nofun⟩
    exact exec_data henc hdec hne h
  · rintro rfl
    exact exec_macFinal_accumulator h

/-! ### Independence: a replacement of state that a command does not read can be made before or after it -/

/-- A change of state that no check of the command sees, and that can be made before or after the command's effect and its
ends, can be made before or after the command. -/
theorem exec_commutes (g : State → State) (hsucceed : ∀ u : State, (g u).succeed = g u.succeed)
    (hfail : ∀ (u : State) c, (g u).failWith c = g (u.failWith c)) {i : Instr} {s t : State}
    (herror : firstError i (g s) = firstError i s) (heffect : commandEffect i (g s) = g (commandEffect i s))
    (h : exec i s = .next t) : exec i (g s) = .next (g t) := by
  obtain ⟨hok, rfl⟩ | ⟨c, hc, hf, rfl⟩ := exec_eq_next h <;>
    obtain ⟨hok', he⟩ | ⟨c', hc', hf', he⟩ := exec_cases i (g s)
  · rw [he, heffect, hsucceed]
  · exact absurd (hf'.symm.trans (herror.trans hok)) hc'
  · exact absurd (hf.symm.trans (herror.symm.trans hok')) hc
  · rw [he, hfail, ← hf', herror, hf]

/-- Settles O34: neither the checks nor the effect of a command look at the other family's context. -/
theorem contextsAreIndependent : Obligations.ContextsAreIndependent := by
  constructor
  · intro i s t m hi h
    refine ⟨exec_macCtx hi h, exec_commutes (·.setMacCtx m) (fun _ => rfl) (fun _ _ => rfl) ?_ ?_ h⟩ <;>
      obtain rfl | rfl | rfl := hi <;> rfl
  · intro i s t c hi h
    refine ⟨exec_cipherCtx (IsMacCommand.ne_keyLoad hi) h,
      exec_commutes (·.setCipherCtx c) (fun _ => rfl) (fun _ _ => rfl) ?_ ?_ h⟩ <;>
      obtain rfl | ⟨len, rfl⟩ | rfl | rfl := hi <;> rfl

/-- Settles O35: only the effects of KEY_LOAD and MAC_INIT look at KEY. -/
theorem loadedKeyIsASnapshot : Obligations.LoadedKeyIsASnapshot := by
  intro i s t k hload hinit h
  refine exec_commutes (·.setKey k) (fun _ => rfl) (fun _ _ => rfl) (by cases i <;> rfl) ?_ h
  cases i with
  | keyLoad => exact absurd rfl hload
  | macInit => exact absurd rfl hinit
  | _ => rfl

end Sys2Proof.Machine
end

section
/-! PROOFS. What one host action can have done when it answers a next state, one constructor per kind of action and register
(20_memory.md R33 to R41; 70_reset_and_hazards.md R125, R130), and the same of a step. -/

namespace Sys2Proof.Machine

/-! ### The register an access reaches -/

theorem regAt_eq_some {offset : BitVec 6} {r : Reg} (h : regAt offset = some r) : offset = regOffset r := by
  have hall : ∀ o : BitVec 6, ∀ q ∈ regAt o, o = regOffset q := by decide
  exact hall offset r h

/-- An accepted access is 32 bits wide and at its register's offset (R33, R35). -/
theorem acceptedReg_eq_some {a : Access} {r : Reg} (h : acceptedReg a = some r) :
    a.bytes = 4 ∧ a.offset = regOffset r := by
  unfold acceptedReg at h
  split at h
  · next hb => exact ⟨hb, regAt_eq_some h⟩
  · cases h

/-! ### Host actions and steps -/

/-- The state a host action leaves the state `s` in. The block a KEY or DATA write stores is named, so that a case split does
not compare its bytes. -/
inductive ActionEffect (s : State) : HostAction → State → Prop where
  | resetAssert (p : Option Access) : ActionEffect s (.resetAssert p) (s.hardwareReset true)
  | resetRelease (hr : s.inReset = true) : ActionEffect s .resetRelease (s.hardwareReset false)
  | releaseIdle (hr : s.inReset = false) : ActionEffect s .resetRelease s
  | read (hr : s.inReset = false) {a : Access} {r : Reg} (ha : acceptedReg a = some r) (hk : a.kind = .read) :
      ActionEffect s (.access a) (s.complete a.master (some (readReg r s)))
  | command (hr : s.inReset = false) (m : Nat) {w : Word} {i : Instr} {u : State} (hw : decode w = .ok i)
      (he : exec i s = .next u) :
      ActionEffect s (.access { master := m, offset := 0x00, bytes := 4, kind := .write w }) (u.complete m none)
  | illegalWord (hr : s.inReset = false) (m : Nat) {w : Word} {e : IllegalWord} (hw : decode w = .error e) :
      ActionEffect s (.access { master := m, offset := 0x00, bytes := 4, kind := .write w })
        ((s.failWith .illegal).complete m none)
  | writeStatus (hr : s.inReset = false) (m : Nat) (v : Word) :
      ActionEffect s (.access { master := m, offset := 0x04, bytes := 4, kind := .write v })
        ((writeStatus v s).complete m none)
  | writeKey (hr : s.inReset = false) (m : Nat) (j : Fin 4) (v : Word) {b : Block} (hb : b = setWord s.key j v) :
      ActionEffect s (.access { master := m, offset := regOffset (.key j), bytes := 4, kind := .write v })
        ((s.setKey b).complete m none)
  | writeData (hr : s.inReset = false) (m : Nat) (j : Fin 4) (v : Word) {b : Block} (hb : b = setWord s.data j v) :
      ActionEffect s (.access { master := m, offset := regOffset (.data j), bytes := 4, kind := .write v })
        ((s.setData b).complete m none)

theorem busAccess_effect {a : Access} {s t : State} (h : busAccess a s = .next t) : ActionEffect s (.access a) t := by
  obtain ⟨hr, r, ha, ⟨hk, rfl⟩ | ⟨v, u, hk, hu, rfl⟩⟩ := busAccess_eq_next h
  · exact .read hr ha hk
  · obtain ⟨hb, ho⟩ := acceptedReg_eq_some ha
    obtain ⟨m, offset, bytes, kind⟩ := a
    subst hb ho hk
    cases r with
    | cmd =>
      obtain ⟨i, hw, hc⟩ | ⟨e, hw, hc⟩ := command_cases v s
      · exact .command hr m hw (hc.symm.trans hu)
      · cases hc.symm.trans hu
        exact .illegalWord hr m hw
    | status =>
      obtain rfl := Host.Outcome.next.inj hu
      exact .writeStatus hr m v
    | key j =>
      obtain rfl := Host.Outcome.next.inj hu
      exact .writeKey hr m j v rfl
    | data j =>
      obtain rfl := Host.Outcome.next.inj hu
      exact .writeData hr m j v rfl

theorem hostAction_effect {h : HostAction} {s t : State} (e : hostAction h s = .next t) : ActionEffect s h t := by
  obtain ⟨a, rfl, ha⟩ | ⟨p, rfl, rfl⟩ | ⟨rfl, ⟨hr, rfl⟩ | ⟨hr, rfl⟩⟩ := hostAction_eq_next e
  · exact busAccess_effect ha
  · exact .resetAssert p
  · exact .resetRelease hr
  · exact .releaseIdle hr

/-- Everything a step that answers a next state can have done. -/
theorem step_eq_next {s t : State} (e : step s = .next t) :
    t = s ∨ ∃ h rest, s.port.pending = h :: rest ∧ ActionEffect (s.setPending rest) h t := by
  obtain ⟨_, hs⟩ | ⟨h, rest, hp, hs⟩ := step_cases s
  · cases hs.symm.trans e
    exact .inl rfl
  · exact .inr ⟨h, rest, hp, hostAction_effect (hs.symm.trans e)⟩

end Sys2Proof.Machine
end

section
/-! PROOFS. The STATUS word and ESTICKY (10_state.md R18, R20), and the steps that can change the contexts and MSTATE
(R23, R25, R27). -/

namespace Sys2Proof.Machine

/-! ### STATUS -/

/-- The fields of a word that is packed as STATUS is (R18). -/
theorem packedStatus_fields : ∀ (mstate : BitVec 2) (valid sticky : Bool) (err : BitVec 3),
    let w : Word := (mstate ++ BitVec.ofBool valid ++ BitVec.ofBool sticky ++ err).setWidth 32
    w.extractLsb' 0 3 = err ∧ w.getLsbD 3 = sticky ∧ w.getLsbD 4 = valid ∧ w.extractLsb' 5 2 = mstate ∧
      w.extractLsb' 7 25 = 0 := by decide

theorem errBits_le (c : ErrCode) : (errBits c).toNat ≤ 4 := by cases c <;> decide

/-- A host write to STATUS changes ESTICKY alone (R20). -/
theorem writeStatus_eq (v : Word) (s : State) :
    writeStatus v s = { s with esticky := if v.getLsbD 3 then false else s.esticky } := by
  obtain ⟨hv, h⟩ | ⟨hv, h⟩ := writeStatus_cases v s <;> rw [h, hv] <;> rfl

@[simp] theorem writeStatus_cipherCtx (v : Word) (s : State) : (writeStatus v s).cipherCtx = s.cipherCtx := by
  rw [writeStatus_eq]
@[simp] theorem writeStatus_macCtx (v : Word) (s : State) : (writeStatus v s).macCtx = s.macCtx := by
  rw [writeStatus_eq]
@[simp] theorem writeStatus_inReset (v : Word) (s : State) : (writeStatus v s).inReset = s.inReset := by
  rw [writeStatus_eq]

/-- Settles O14: the fields as they are packed, and the one field a host write changes. -/
theorem statusWordFields : Obligations.StatusWordFields := by
  intro s
  obtain ⟨herr, hsticky, hvalid, hmstate, hzero⟩ :=
    packedStatus_fields (mstateBits s.macCtx.mstate) s.cipherCtx.valid s.esticky (errBits s.err)
  refine ⟨herr, ?_, hsticky, hvalid, hmstate, hzero, fun v =>
    ⟨_, congrArg Host.Outcome.next (writeStatus_eq v s), rfl⟩⟩
  rw [statusWord, herr]
  exact errBits_le s.err

/-! ### ESTICKY -/

/-- A host action that asserts or releases reset. -/
def IsResetAction (h : HostAction) : Prop := (∃ p, h = .resetAssert p) ∨ h = .resetRelease

/-- A 32-bit write to STATUS with bit 3 set (R20). -/
def IsStickyClear (h : HostAction) : Prop :=
  ∃ m v, h = .access { master := m, offset := 0x04, bytes := 4, kind := .write v } ∧ v.getLsbD 3 = true

/-- The only host actions that can clear ESTICKY (R20). -/
theorem ActionEffect.clears_sticky {s t : State} {h : HostAction} (e : ActionEffect s h t) (hs : s.esticky = true)
    (ht : t.esticky = false) : IsStickyClear h ∨ IsResetAction h := by
  cases e with
  | resetAssert p => exact .inr (.inl ⟨p, rfl⟩)
  | resetRelease | releaseIdle => exact .inr (.inr rfl)
  | command _ m hw he =>
    have hu := exec_keeps_sticky he hs
    cases ht.symm.trans hu
  | illegalWord => cases ht
  | writeStatus _ m v =>
    obtain ⟨hv, _⟩ | ⟨_, hkeep⟩ := writeStatus_cases v s
    · exact .inl ⟨m, v, rfl, hv⟩
    · rw [hkeep] at ht
      cases ht.symm.trans hs
  | read | writeKey | writeData => cases ht.symm.trans hs

theorem command_esticky {w : Word} {s t : State} (h : command w s = .next t) :
    (t.err ≠ .ok → t.esticky = true) ∧ (t.err = .ok → t.esticky = s.esticky) := by
  obtain ⟨i, _, hc⟩ | ⟨e, _, hc⟩ := command_cases w s
  · exact exec_esticky (hc.symm.trans h)
  · cases hc.symm.trans h
    exact ⟨fun _ => rfl, nofun⟩

/-- Settles O15: the two ends of a command, and the host actions that can clear the bit. -/
theorem stickyBitSetAndCleared : Obligations.StickyBitSetAndCleared := by
  refine ⟨fun i s t h => exec_esticky h, fun w s t h => command_esticky h, fun s t e hs ht => ?_, fun _ _ => rfl⟩
  obtain rfl | ⟨h, rest, hp, he⟩ := step_eq_next e
  · simp [hs] at ht
  · exact ⟨h, rest, hp, he.clears_sticky hs ht⟩

/-! ### The contexts -/

/-- A 32-bit write to CMD of a legal word (R41). -/
def IsCommandWrite (h : HostAction) : Prop :=
  ∃ m w i, h = .access { master := m, offset := 0x00, bytes := 4, kind := .write w } ∧ decode w = .ok i

/-- Any other host action keeps both contexts (R23, R25). -/
theorem ActionEffect.keeps_contexts {s t : State} {h : HostAction} (e : ActionEffect s h t) :
    (IsCommandWrite h ∨ IsResetAction h) ∨ (t.cipherCtx = s.cipherCtx ∧ t.macCtx = s.macCtx) := by
  cases e with
  | resetAssert p => exact .inl (.inr (.inl ⟨p, rfl⟩))
  | resetRelease | releaseIdle => exact .inl (.inr (.inr rfl))
  | command _ m hw => exact .inl (.inl ⟨m, _, _, rfl, hw⟩)
  | read | illegalWord | writeStatus | writeKey | writeData => exact .inr (by simp)

/-- Settles O16: every host action but the ones named keeps both contexts, and so does an idle step. -/
theorem onlyCommandsAndResetChangeContexts : Obligations.OnlyCommandsAndResetChangeContexts := by
  intro s t e hne
  obtain rfl | ⟨h, rest, hp, he⟩ := step_eq_next e
  · simp at hne
  · obtain hact | ⟨hc, hm⟩ := he.keeps_contexts
    · exact ⟨h, rest, hp, hact⟩
    · simp [hc, hm] at hne

/-! ### MSTATE -/

@[simp] theorem inputContext_mstate (m : MacContext) (d : Block) (len : Nat) :
    (inputContext m d len).mstate = if len = 0 then m.mstate else .accumulating := by
  unfold inputContext
  by_cases h : len = 0
  · simp [h]
  · simp [h, Nat.pos_of_ne_zero h]

theorem exec_mstate {i : Instr} {s t : State} (h : exec i s = .next t) :
    t.macCtx.mstate = if firstError i s = .ok then (commandEffect i s).macCtx.mstate else s.macCtx.mstate := by
  obtain ⟨hok, rfl⟩ | ⟨c, hc, hf, rfl⟩ := exec_eq_next h
  · rw [if_pos hok, State.succeed_macCtx]
  · rw [if_neg (hf ▸ hc), State.failWith_macCtx]

/-- Settles O21: MSTATE by the check and the effect of each command, ERR by the first check, and the actions that change the
MAC context. -/
theorem macStateFollowsTheTable : Obligations.MacStateFollowsTheTable := by
  refine ⟨fun i s t h => ?_, fun i s t h hi => ?_, fun p s t h => ?_, fun s t e hne => ?_⟩
  · rw [exec_mstate h]
    cases i with
    | keyLoad | macInit => rfl
    | enc | dec => exact ite_self _
    | macInput len =>
      rw [if_congr firstError_macInput_ok rfl rfl]
      cases hm : s.macCtx.mstate with
      | fresh =>
        by_cases hl : len ≤ 16
        · simp [commandEffect, hm, hl, Nat.not_lt.2 hl]
        · simp [hl, Nat.lt_of_not_le hl]
      | unkeyed | finalized => simp
      | accumulating => simp [commandEffect, hm]
    | macFinal =>
      rw [if_congr firstError_macFinal_ok rfl rfl]
      cases hm : s.macCtx.mstate <;> simp [commandEffect]
    | macReset =>
      rw [if_congr firstError_macReset_ok rfl rfl]
      cases hm : s.macCtx.mstate <;> simp [commandEffect]
  · rw [exec_err h]
    obtain rfl | ⟨len, rfl⟩ | rfl | rfl := hi
    · rfl
    all_goals cases hm : s.macCtx.mstate <;> simp [firstError, hm]
  · cases h
    rfl
  · exact onlyCommandsAndResetChangeContexts s t e (.inr fun hm => hne (congrArg MacContext.mstate hm))

end Sys2Proof.Machine
end

section
/-! PROOFS. Every step keeps the invariant of the contexts and of the reset input (10_state.md R23, R24, R28; R125). -/

namespace Sys2Proof.Machine

/-! ### The contexts a command leaves -/

theorem scheduleLoaded_keyExpansion (K : Block) : ScheduleLoaded (keyExpansion K) 10 := ⟨rfl, K, rfl⟩

theorem MacInv.scheduleLoaded {m : MacContext} (hm : MacInv m) (hkeyed : m.mstate ≠ .unkeyed) :
    ScheduleLoaded m.rk m.nr := hm.1 hkeyed

/-- A restarted computation is sound under any loaded schedule (R95, R98). -/
theorem macInv_restartMac {m : MacContext} (hs : ScheduleLoaded m.rk m.nr) : MacInv (restartMac m) :=
  ⟨fun _ => hs, fun _ => ⟨rfl, rfl⟩, nofun⟩

/-- Finalized asks for a loaded schedule alone (R97). -/
theorem macInv_finalized {m : MacContext} (hs : ScheduleLoaded m.rk m.nr) : MacInv { m with mstate := .finalized } :=
  ⟨fun _ => hs, nofun, nofun⟩

/-- BUF is never empty after a byte (R92). -/
theorem absorb_blen_pos (m : MacContext) (b : Byte) : 1 ≤ (absorb m b).blen.val := by
  rw [absorb, putByte_of_lt (chainIfFull_blen_lt m)]
  exact Nat.le_add_left ..

theorem absorbAll_blen_pos (m : MacContext) {l : List Byte} (hl : l ≠ []) : 1 ≤ (absorbAll m l).blen.val := by
  obtain rfl | ⟨k, b, rfl⟩ := l.eq_nil_or_concat
  · exact absurd rfl hl
  · rw [List.concat_eq_append, absorbAll_append]
    exact absorb_blen_pos _ b

theorem inputBytes_ne_nil (d : Block) {len : Nat} (h : 0 < len) : inputBytes d len ≠ [] := by
  refine List.ne_nil_of_length_pos ?_
  simp [inputBytes, h]

@[simp] theorem inputContext_zero (m : MacContext) (d : Block) : inputContext m d 0 = m := by
  simp [inputContext, inputBytes]

/-- MAC_INPUT keeps a sound context sound: no byte changes nothing, and after some byte BLEN is in 1..16 (R96). -/
theorem macInv_inputContext {m : MacContext} (hm : MacInv m) (hkeyed : m.mstate ≠ .unkeyed) (d : Block) (len : Nat) :
    MacInv (inputContext m d len) := by
  obtain rfl | hlen := len.eq_zero_or_pos
  · rwa [inputContext_zero]
  · have hacc : (inputContext m d len).mstate = .accumulating := by simp [Nat.ne_of_gt hlen]
    refine ⟨fun _ => ?_, fun hf => ?_, fun _ => ⟨?_, Nat.le_of_lt_succ (Fin.isLt _)⟩⟩
    · simpa using hm.scheduleLoaded hkeyed
    · rw [hacc] at hf
      cases hf
    · rw [inputContext, if_pos hlen]
      exact absorbAll_blen_pos m (inputBytes_ne_nil d hlen)

theorem mstate_ne_unkeyed_of_firstError_ok {i : Instr} {s : State}
    (hi : (∃ len, i = .macInput len) ∨ i = .macFinal ∨ i = .macReset) (hok : firstError i s = .ok) :
    s.macCtx.mstate ≠ .unkeyed := by
  obtain ⟨len, rfl⟩ | rfl | rfl := hi
  · exact (firstError_macInput_ok.1 hok).2.1
  · exact (firstError_macFinal_ok.1 hok).1
  · exact firstError_macReset_ok.1 hok

theorem exec_keeps_cipherInv {i : Instr} {s t : State} (hs : CipherInv s.cipherCtx) (h : exec i s = .next t) :
    CipherInv t.cipherCtx := by
  by_cases hi : i = .keyLoad
  · subst hi
    cases (execKeyLoad_eq s).symm.trans h
    exact fun _ => scheduleLoaded_keyExpansion s.key
  · rwa [exec_cipherCtx hi h]

theorem exec_keeps_macInv {i : Instr} {s t : State} (hs : MacInv s.macCtx) (h : exec i s = .next t) :
    MacInv t.macCtx := by
  obtain ⟨hok, rfl⟩ | ⟨c, _, _, rfl⟩ := exec_eq_next h
  · have keyed := fun hi => mstate_ne_unkeyed_of_firstError_ok (i := i) hi hok
    cases i with
    | keyLoad | enc | dec => exact hs
    | macInit => exact macInv_restartMac (scheduleLoaded_keyExpansion s.key)
    | macInput len => exact macInv_inputContext hs (keyed (.inl ⟨len, rfl⟩)) s.data len
    | macFinal => exact macInv_finalized (hs.scheduleLoaded (keyed (.inr (.inl rfl))))
    | macReset => exact macInv_restartMac (hs.scheduleLoaded (keyed (.inr (.inr rfl))))
  · exact hs

/-! ### Host actions and steps -/

theorem inv_hardwareReset (s : State) (asserted : Bool) : Inv (s.hardwareReset asserted) :=
  ⟨nofun, ⟨fun hm => absurd rfl hm, nofun, nofun⟩, fun _ => ⟨rfl, rfl, rfl, rfl, rfl, rfl⟩⟩

/-- With reset released only the contexts are constrained. -/
theorem inv_of_contexts {s : State} (hc : CipherInv s.cipherCtx) (hm : MacInv s.macCtx) (hr : s.inReset = false) :
    Inv s :=
  ⟨hc, hm, fun h => by simp [hr] at h⟩

theorem ActionEffect.keeps_inv {s t : State} {h : HostAction} (e : ActionEffect s h t) (hs : Inv s) : Inv t := by
  have ⟨hc, hm, _⟩ := hs
  cases e with
  | resetAssert | resetRelease => exact inv_hardwareReset ..
  | releaseIdle => exact hs
  | command hr m hw he =>
    have hc' := exec_keeps_cipherInv hc he
    have hm' := exec_keeps_macInv hm he
    exact inv_of_contexts hc' hm' ((exec_inReset he).trans hr)
  | read hr | illegalWord hr | writeStatus hr | writeKey hr | writeData hr =>
    exact inv_of_contexts (by simpa using hc) (by simpa using hm) (by simpa using hr)

/-- Settles O49: an idle step changes nothing, and every host action keeps the invariant. -/
theorem stepKeepsInvariant : Obligations.StepKeepsInvariant := by
  intro s t hs e
  obtain rfl | ⟨h, rest, _, he⟩ := step_eq_next e
  · exact hs
  · exact he.keeps_inv hs

end Sys2Proof.Machine
end

section
/-! PROOFS. The register window at the port: which accesses the block accepts, and what a read and a write of each register do
(20_memory.md R33 to R44). -/

namespace Sys2Proof.Machine

/-! ### The register map -/

@[simp] theorem regAt_regOffset (r : Reg) : regAt (regOffset r) = some r := by
  cases r with
  | cmd | status => rfl
  | key j | data j =>
    revert j
    decide

/-- The offsets at which there is no register: the misaligned and the reserved ones (R34, R36). -/
theorem regAt_eq_none_iff : ∀ o : BitVec 6,
    regAt o = none ↔ o.toNat % 4 ≠ 0 ∨ o = 0x08 ∨ o = 0x0C ∨ 0x30 ≤ o.toNat := by decide

theorem regOffset_key : ∀ j : Fin 4, BitVec.ofNat 6 (0x10 + 4 * j.val) = regOffset (.key j) := by decide

theorem regOffset_data : ∀ j : Fin 4, BitVec.ofNat 6 (0x20 + 4 * j.val) = regOffset (.data j) := by decide

/-- The accesses the block does not accept (R35, R39). -/
theorem acceptedReg_eq_none_iff (a : Access) :
    acceptedReg a = none ↔
      a.bytes ≠ 4 ∨ a.offset.toNat % 4 ≠ 0 ∨ a.offset = 0x08 ∨ a.offset = 0x0C ∨ 0x30 ≤ a.offset.toNat := by
  rw [← regAt_eq_none_iff]
  by_cases hb : a.bytes = 4 <;> simp [acceptedReg, Config.busBytes, hb]

/-! ### Which accesses complete -/

theorem exec_completes (i : Instr) (s : State) : ∃ t, exec i s = .next t := by
  obtain ⟨_, he⟩ | ⟨_, _, _, he⟩ := exec_cases i s <;> exact ⟨_, he⟩

theorem command_completes (w : Word) (s : State) : ∃ t, command w s = .next t := by
  obtain ⟨i, _, hc⟩ | ⟨_, _, hc⟩ := command_cases w s
  · rw [hc]
    exact exec_completes i s
  · exact ⟨_, hc⟩

theorem writeReg_completes (r : Reg) (v : Word) (s : State) : ∃ t, writeReg r v s = .next t := by
  cases r with
  | cmd => exact command_completes v s
  | status | key _ | data _ => exact ⟨_, rfl⟩

theorem busAccess_busError {a : Access} {s : State} (hs : s.inReset = false) (ha : acceptedReg a = none) :
    busAccess a s = .fault .busError := by simp [busAccess, hs, ha]

/-- An accepted access completes, whatever it does (R38, R40, R118). -/
theorem busAccess_completes {a : Access} {r : Reg} {s : State} (hs : s.inReset = false) (ha : acceptedReg a = some r) :
    ∃ t, busAccess a s = .next t := by
  cases hk : a.kind with
  | read => exact ⟨_, busAccess_read hs ha hk⟩
  | write v =>
    obtain ⟨t, ht⟩ := writeReg_completes r v s
    exact ⟨t.complete a.master none, by rw [busAccess_write hs ha hk, ht, completeWrite]⟩

/-- Settles O9: an access the block does not accept is a bus error, and an accepted one completes. -/
theorem busErrorsExactly : Obligations.BusErrorsExactly := by
  intro a s hs
  rw [← acceptedReg_eq_none_iff]
  cases ha : acceptedReg a with
  | none =>
    have herr := busAccess_busError hs ha
    exact ⟨⟨fun _ => rfl, fun _ => herr⟩, fun hne => absurd herr hne⟩
  | some r =>
    obtain ⟨t, ht⟩ := busAccess_completes hs ha
    exact ⟨by simp [ht], fun _ => ⟨t, ht⟩⟩

/-! ### Accesses by register -/

@[simp] theorem acceptedReg_regOffset (m : Nat) (r : Reg) (k : AccessKind) :
    acceptedReg { master := m, offset := regOffset r, bytes := 4, kind := k } = some r := regAt_regOffset r

theorem busAccess_read_reg (m : Nat) (r : Reg) {s : State} (hs : s.inReset = false) :
    busAccess { master := m, offset := regOffset r, bytes := 4, kind := .read } s =
      .next (s.complete m (some (readReg r s))) :=
  busAccess_read hs (acceptedReg_regOffset m r .read) rfl

theorem busAccess_write_reg (m : Nat) (r : Reg) (v : Word) {s : State} (hs : s.inReset = false) :
    busAccess { master := m, offset := regOffset r, bytes := 4, kind := .write v } s =
      completeWrite m (writeReg r v s) :=
  busAccess_write hs (acceptedReg_regOffset m r (.write v)) rfl

@[simp] theorem writeReg_cmd (v : Word) (s : State) : writeReg .cmd v s = command v s := rfl
@[simp] theorem writeReg_status (v : Word) (s : State) : writeReg .status v s = .next (writeStatus v s) := rfl
@[simp] theorem writeReg_key (j : Fin 4) (v : Word) (s : State) :
    writeReg (.key j) v s = .next (s.setKey (setWord s.key j v)) := rfl
@[simp] theorem writeReg_data (j : Fin 4) (v : Word) (s : State) :
    writeReg (.data j) v s = .next (s.setData (setWord s.data j v)) := rfl

/-- Settles O10, register by register. -/
theorem readsReturnRegisterValues : Obligations.ReadsReturnRegisterValues := by
  intro m s hs
  refine ⟨busAccess_read_reg m .cmd hs, busAccess_read_reg m .status hs, fun j => ?_⟩
  rw [regOffset_key, regOffset_data]
  exact ⟨busAccess_read_reg m (.key j) hs, busAccess_read_reg m (.data j) hs⟩

/-- The bytes of a 16-byte register after a write of word `j`, most significant byte first (R37, R40). -/
theorem setWord_bytes (b : Block) (j : Fin 4) (v : Word) (i : Fin 16) :
    (setWord b j v)[i] = if i.val / 4 = j.val then v.extractLsb' (24 - 8 * (i.val % 4)) 8 else b[i] := by
  have hpos : 8 * (3 - i.val % 4) = 24 - 8 * (i.val % 4) := by omega
  simp [wordByte, hpos]

/-- Settles O11, register by register. -/
theorem writesReplaceNamedBytes : Obligations.WritesReplaceNamedBytes := by
  intro m v s hs
  refine ⟨busAccess_write_reg m .cmd v hs, ?_, fun j => ?_⟩
  · refine (busAccess_write_reg m .status v hs).trans ?_
    rw [writeReg_status, writeStatus_eq]
    rfl
  · rw [regOffset_key, regOffset_data]
    exact ⟨⟨setWord s.key j v, busAccess_write_reg m (.key j) v hs, setWord_bytes s.key j v⟩,
      ⟨setWord s.data j v, busAccess_write_reg m (.data j) v hs, setWord_bytes s.data j v⟩⟩

/-! ### A word that has been written -/

/-- The four bytes of a word, most significant first, are the word (R37). -/
theorem wordByte_append (v : Word) : wordByte v 0 ++ wordByte v 1 ++ wordByte v 2 ++ wordByte v 3 = v := by
  have h01 : wordByte v 0 ++ wordByte v 1 = v.extractLsb' 16 16 :=
    BitVec.extractLsb'_append_extractLsb'_eq_extractLsb' rfl
  have h012 : v.extractLsb' 16 16 ++ wordByte v 2 = v.extractLsb' 8 24 :=
    BitVec.extractLsb'_append_extractLsb'_eq_extractLsb' rfl
  have h0123 : v.extractLsb' 8 24 ++ wordByte v 3 = v.extractLsb' 0 32 :=
    BitVec.extractLsb'_append_extractLsb'_eq_extractLsb' rfl
  rw [h01, h012, h0123, BitVec.extractLsb'_eq_self]

theorem getWord_eq_bytes (b : Block) (k : Fin 4) :
    getWord b k = b[4 * k.val + (0 : Fin 4).val] ++ b[4 * k.val + (1 : Fin 4).val] ++ b[4 * k.val + (2 : Fin 4).val] ++
      b[4 * k.val + (3 : Fin 4).val] := rfl

/-- Byte `c` of word `k` after a write of word `j`. -/
theorem setWord_byte_of_word (b : Block) (j k c : Fin 4) (v : Word) :
    (setWord b j v)[4 * k.val + c.val] = if k = j then wordByte v c else b[4 * k.val + c.val] := by
  have hword : (4 * k.val + c.val) / 4 = k.val := by omega
  have hbyte : (4 * k.val + c.val) % 4 = c.val := by omega
  simp [hword, hbyte, Fin.ext_iff]

theorem getWord_setWord (b : Block) (j k : Fin 4) (v : Word) :
    getWord (setWord b j v) k = if k = j then v else getWord b k := by
  rw [getWord_eq_bytes, getWord_eq_bytes b, setWord_byte_of_word, setWord_byte_of_word, setWord_byte_of_word,
    setWord_byte_of_word]
  by_cases hk : k = j
  · simp only [if_pos hk]
    exact wordByte_append v
  · simp only [if_neg hk]

/-- Settles O12: a word keeps what is written to it, and KEY writes leave DATA alone. -/
theorem wordReadsBackAsWritten : Obligations.WordReadsBackAsWritten := by
  intro v j k s t u ht hu
  obtain rfl := Host.Outcome.next.inj ht
  obtain rfl := Host.Outcome.next.inj hu
  exact ⟨getWord_setWord s.data j k v, rfl, rfl⟩

@[simp] theorem setWord_setWord (b : Block) (j : Fin 4) (v : Word) : setWord (setWord b j v) j v = setWord b j v := by
  refine Vector.ext fun i h => ?_
  by_cases hi : i / 4 = j.val <;> simp [hi]

@[simp] theorem writeStatus_writeStatus (v : Word) (s : State) : writeStatus v (writeStatus v s) = writeStatus v s := by
  obtain ⟨hv, _⟩ | ⟨hv, _⟩ := writeStatus_cases v s <;> simp [writeStatus_eq, hv]

/-- Settles O13: the second write finds the bytes, or ESTICKY, as the first has left them. -/
theorem registerWritesIdempotent : Obligations.RegisterWritesIdempotent := by
  intro r v s hr
  cases r with
  | cmd => exact absurd rfl hr
  | status => exact ⟨writeStatus v s, rfl, by simp⟩
  | key j => exact ⟨s.setKey (setWord s.key j v), rfl, by simp [State.setKey]⟩
  | data j => exact ⟨s.setData (setWord s.data j v), rfl, by simp [State.setData]⟩

/-! ### The step on an access -/

theorem step_of_pending {s : State} {h : HostAction} {rest : List HostAction} (hp : s.port.pending = h :: rest) :
    step s = hostAction h (s.setPending rest) := by simp [step, hp]

theorem command_of_decode {w : Word} {i : Instr} (hw : decode w = .ok i) (s : State) : command w s = exec i s := by
  simp [command, hw]

/-- Settles O6: the step takes the CMD write off the queue, and the write runs the command and completes. -/
theorem stepRunsDecodedCommand : Obligations.StepRunsDecodedCommand := by
  intro s m w i rest hs hw hp
  calc step s = completeWrite m (command w (s.setPending rest)) :=
        (step_of_pending hp).trans (busAccess_write_reg m .cmd w hs)
    _ = completeWrite m (exec i (s.setPending rest)) := by rw [command_of_decode hw]

end Sys2Proof.Machine
end

section
/-! PROOFS. An access on the bus of a system of instances (20_memory.md R32, R34, R48). -/

namespace Sys2Proof.Machine

theorem inWindow_iff {addr base : Nat} : inWindow addr base = true ↔ base ≤ addr ∧ addr < base + 64 := by
  rw [inWindow, Bool.and_eq_true, decide_eq_true_iff, decide_eq_true_iff, Config.windowBytes]

/-- Windows at different multiples of 64 do not overlap (R6, R32). -/
theorem not_inWindow_of_ne {addr b c : Nat} (hb : b % 64 = 0) (hc : c % 64 = 0) (hne : c ≠ b)
    (hin : inWindow addr b = true) : inWindow addr c = false := by
  rw [Bool.eq_false_iff, Ne, inWindow_iff]
  rw [inWindow_iff] at hin
  omega

theorem systemWf_iff {sys : System} :
    systemWf sys = true ↔ sys ≠ [] ∧ (∀ x ∈ sys, x.base % 64 = 0) ∧ (sys.map Instance.base).Nodup := by
  simp [systemWf, Config.windowBytes, and_assoc]

/-- What an access on the host bus does to one instance: it reaches the block through the window that holds its address, and
leaves an instance with another window as it is. -/
inductive InstanceEffect (addr master bytes : Nat) (kind : AccessKind) : Instance → Instance → Prop where
  | inside {x : Instance} {b : State} (hin : inWindow addr x.base = true)
      (hb : busAccess (windowAccess x.base addr master bytes kind) x.block = .next b) :
      InstanceEffect addr master bytes kind x { x with block := b }
  | outside {x : Instance} (hout : inWindow addr x.base = false) : InstanceEffect addr master bytes kind x x

section
variable {addr master bytes : Nat} {kind : AccessKind}

theorem InstanceEffect.base_eq {x y : Instance} (e : InstanceEffect addr master bytes kind x y) : x.base = y.base := by
  cases e <;> rfl

/-- Everything an access that completes can have done to a system with a first instance. -/
theorem systemAccess_cons_eq_next {x : Instance} {rest sys' : System}
    (h : systemAccess addr master bytes kind (x :: rest) = .next sys') :
    (inWindow addr x.base = true ∧ ∃ b, busAccess (windowAccess x.base addr master bytes kind) x.block = .next b ∧
        sys' = { x with block := b } :: rest) ∨
      (inWindow addr x.base = false ∧ ∃ rest', systemAccess addr master bytes kind rest = .next rest' ∧
        sys' = x :: rest') := by
  unfold systemAccess at h
  split at h
  · next hin =>
    split at h <;> cases h
    next b hb => exact .inl ⟨hin, b, hb, rfl⟩
  · next hout =>
    split at h <;> cases h
    next rest' hrest => exact .inr ⟨Bool.eq_false_iff.2 hout, rest', hrest, rfl⟩

/-- An access that completes has its effect on each instance by that instance's window alone (R48). -/
theorem systemAccess_effect {sys sys' : System} (hbase : ∀ x ∈ sys, x.base % 64 = 0)
    (hnodup : (sys.map Instance.base).Nodup) (h : systemAccess addr master bytes kind sys = .next sys') :
    List.Forall₂ (InstanceEffect addr master bytes kind) sys sys' := by
  induction sys generalizing sys' with
  | nil =>
    cases h
    exact .nil
  | cons x rest ih =>
    obtain ⟨hx, hrest⟩ := List.forall_mem_cons.1 hbase
    rw [List.map_cons, List.nodup_cons] at hnodup
    obtain ⟨hnew, hnodup'⟩ := hnodup
    obtain ⟨hin, b, hb, rfl⟩ | ⟨hout, rest', hr, rfl⟩ := systemAccess_cons_eq_next h
    · refine .cons (.inside hin hb) (List.forall₂_same.2 fun y hy => .outside ?_)
      have hne : y.base ≠ x.base := fun e => hnew (e ▸ List.mem_map_of_mem hy)
      exact not_inWindow_of_ne hx (hrest y hy) hne hin
    · exact .cons (.outside hout) (ih hrest hnodup' hr)

end

/-- Settles O54: the effect on each instance, read off at its place in the system. -/
theorem instancesShareNoState : Obligations.InstancesShareNoState := by
  intro sys sys' addr m bytes k hwf h
  obtain ⟨_, hbase, hnodup⟩ := systemWf_iff.1 hwf
  have heffect := systemAccess_effect hbase hnodup h
  refine ⟨?_, fun n x y hx hy => ?_⟩
  · have heq : List.Forall₂ Eq (sys.map Instance.base) (sys'.map Instance.base) :=
      List.forall₂_map_left_iff.2 (List.forall₂_map_right_iff.2 (heffect.imp fun _ _ => InstanceEffect.base_eq))
    rw [List.forall₂_eq_eq_eq] at heq
    exact heq.symm
  · obtain ⟨hn, rfl⟩ := List.getElem?_eq_some_iff.1 hx
    obtain ⟨hn', rfl⟩ := List.getElem?_eq_some_iff.1 hy
    have hxy : InstanceEffect addr m bytes k sys[n] sys'[n] := heffect.get hn hn'
    rw [← if_congr inWindow_iff rfl rfl]
    generalize sys[n] = x, sys'[n] = y at hxy ⊢
    cases hxy with
    | inside hin hb => rwa [if_pos hin]
    | outside hout => rw [if_neg (by simp [hout])]

end Sys2Proof.Machine
end

section
/-! PROOFS. The command word: it is its three fields, and a word decodes to the one well-formed command with those fields
(30_encoding.md R51 to R58). -/

namespace Sys2Proof

/-! ### The fields of a word -/

/-- A word is its three fields (R51). -/
theorem word_ext_fields {v w : Word} (hrsv : rsvField v = rsvField w) (hlen : lenField v = lenField w)
    (hop : opField v = opField w) : v = w := by
  rw [← BitVec.toNat_inj, word_eq_fields, word_eq_fields w, hrsv, hlen, hop]

/-- The fields of an encoded command, whatever its count (R51, R53). -/
theorem encode_fields (i : Instr) :
    rsvField (encode i) = 0 ∧ lenField (encode i) = lenCode i ∧ opField (encode i) = opCode i := by
  have hnat := encode_toNat i
  rw [word_eq_fields] at hnat
  have hlen := (lenCode i).isLt
  have hop := (opCode i).isLt
  have hlen' := (lenField (encode i)).isLt
  have hop' := (opField (encode i)).isLt
  refine ⟨BitVec.eq_of_toNat_eq ?_, BitVec.eq_of_toNat_eq ?_, BitVec.eq_of_toNat_eq ?_⟩
  · show (rsvField (encode i)).toNat = 0
    omega
  · omega
  · omega

/-- The word of a command is the one word with RSV = 0 and the command's LEN and OP (R51, R53). -/
theorem encode_eq_iff {i : Instr} {w : Word} :
    encode i = w ↔ rsvField w = 0 ∧ lenField w = lenCode i ∧ opField w = opCode i := by
  obtain ⟨hrsv, hlen, hop⟩ := encode_fields i
  constructor
  · rintro rfl
    exact ⟨hrsv, hlen, hop⟩
  · rintro ⟨hrsv', hlen', hop'⟩
    exact word_ext_fields (hrsv.trans hrsv'.symm) (hlen.trans hlen'.symm) (hop.trans hop'.symm)

/-! ### The decoder on OP and LEN -/

theorem withoutLen_eq_ok {len : Nat} {i j : Instr} : withoutLen len i = .ok j ↔ len = 0 ∧ i = j := by
  unfold withoutLen
  split <;> simp [*]

/-- The fields of a well-formed command decode to it (R53, R58). -/
theorem decodeFields_codes {i : Instr} (hi : i.wf = true) : decodeFields (opCode i) (lenCode i) = .ok i := by
  cases i with
  | macInput len =>
    have hlen : len < 32 := of_decide_eq_true hi
    show Except.ok (Instr.macInput (BitVec.ofNat 5 len).toNat) = .ok (Instr.macInput len)
    rw [BitVec.toNat_ofNat, Nat.mod_eq_of_lt hlen]
  | _ => rfl

/-- A decoded command is well-formed and has the OP and LEN it is decoded from (R58). -/
theorem codes_of_decodeFields {op : BitVec 4} {len : BitVec 5} {i : Instr} (h : decodeFields op len = .ok i) :
    i.wf = true ∧ lenCode i = len ∧ opCode i = op := by
  unfold decodeFields at h
  split at h
  case h_5 hop =>
    cases h
    exact ⟨decide_eq_true len.isLt, BitVec.ofNat_toNat .., BitVec.eq_of_toNat_eq hop.symm⟩
  case h_8 => cases h
  all_goals
    next hop =>
      obtain ⟨hlen, rfl⟩ := withoutLen_eq_ok.1 h
      exact ⟨rfl, (BitVec.eq_of_toNat_eq hlen).symm, BitVec.eq_of_toNat_eq hop.symm⟩

/-! ### The decoder is the inverse of the encoder -/

theorem decode_eq_decodeFields {w : Word} (hrsv : rsvField w = 0) :
    decode w = decodeFields (opField w) (lenField w) := by
  rw [decode_eq_fields, if_neg (not_not.2 hrsv)]

theorem decode_reserved {w : Word} (hrsv : rsvField w ≠ 0) : decode w = .error .reservedBits := by
  rw [decode_eq_fields, if_pos hrsv]

/-- Settles O1: the decoder reads from the word the fields the encoder has put there. -/
theorem decodeEncodeRoundTrip : Obligations.DecodeEncodeRoundTrip := by
  intro i hi
  obtain ⟨hrsv, hlen, hop⟩ := encode_fields i
  rw [decode_eq_decodeFields hrsv, hlen, hop, decodeFields_codes hi]

theorem rsvField_of_decode {w : Word} {i : Instr} (h : decode w = .ok i) : rsvField w = 0 := by
  by_contra hrsv
  cases (decode_reserved hrsv).symm.trans h

/-- What a word that decodes to a command has in common with the command (R58). -/
theorem fields_of_decode {w : Word} {i : Instr} (h : decode w = .ok i) :
    i.wf = true ∧ lenCode i = lenField w ∧ opCode i = opField w :=
  codes_of_decodeFields ((decode_eq_decodeFields (rsvField_of_decode h)).symm.trans h)

/-- Settles O2: a legal word has the three fields of its command's word. -/
theorem decodedWordIsItsEncoding : Obligations.DecodedWordIsItsEncoding := by
  intro w i h
  obtain ⟨hwf, hlen, hop⟩ := fields_of_decode h
  exact ⟨hwf, encode_eq_iff.2 ⟨rsvField_of_decode h, hlen.symm, hop.symm⟩⟩

/-- The decoder answers a command for the command's own word alone (R57). -/
theorem decode_eq_ok_iff {w : Word} {i : Instr} : decode w = .ok i ↔ i.wf = true ∧ encode i = w :=
  ⟨decodedWordIsItsEncoding w i, fun ⟨hwf, he⟩ => he ▸ decodeEncodeRoundTrip i hwf⟩

/-- Settles O5: each word is its command's encoding. -/
theorem sampleWordsDecode : Obligations.SampleWordsDecode := by
  refine ⟨?_, ?_, ?_, ?_, ?_⟩ <;> exact decode_eq_ok_iff.2 (by decide)

end Sys2Proof
end

section
/-! PROOFS. The illegal words and the legal ones, their numbers, and what a CMD write of each does (30_encoding.md R54 to
R58). -/

namespace Sys2Proof.Machine

/-! ### The illegal words -/

theorem withoutLen_error_iff {len : Nat} {i : Instr} : (∃ e, withoutLen len i = .error e) ↔ len ≠ 0 := by
  unfold withoutLen
  split <;> simp [*]

/-- Which OP and LEN values encode no command (R54, R56). -/
theorem decodeFields_error_iff (op : BitVec 4) (len : BitVec 5) :
    (∃ e, decodeFields op len = .error e) ↔ op = 0 ∨ 8 ≤ op.toNat ∨ (op ≠ 5 ∧ len ≠ 0) := by
  unfold decodeFields
  split
  case h_5 hop => simp [BitVec.eq_of_toNat_eq (y := 5) hop]
  case h_8 =>
    simp only [imp_false] at *
    have hop : op = 0 ∨ 8 ≤ op.toNat := by bv_omega
    exact ⟨fun _ => hop.imp_right .inl, fun _ => ⟨_, rfl⟩⟩
  all_goals
    next hop =>
      rw [withoutLen_error_iff]
      bv_omega

/-- Which words are illegal (R54 to R56). -/
theorem decode_error_iff (w : Word) :
    (∃ e, decode w = .error e) ↔
      rsvField w ≠ 0 ∨ opField w = 0 ∨ 8 ≤ (opField w).toNat ∨ (opField w ≠ 5 ∧ lenField w ≠ 0) := by
  by_cases hrsv : rsvField w = 0
  · rw [decode_eq_decodeFields hrsv, decodeFields_error_iff, or_iff_right (not_not.2 hrsv)]
  · exact iff_of_true ⟨_, decode_reserved hrsv⟩ (.inl hrsv)

theorem command_of_illegal {w : Word} {e : IllegalWord} (hw : decode w = .error e) (s : State) :
    command w s = .next (s.failWith .illegal) := by
  simp [command, hw, raiseError]

/-- Settles O3: the fields decide, and a CMD write does what the verdict says. -/
theorem decodeFollowsFields : Obligations.DecodeFollowsFields := by
  refine fun w => ⟨decode_error_iff w, fun i h => ?_, fun i s h => command_of_decode h s,
    fun e s h => command_of_illegal h s⟩
  obtain ⟨_, hlen, hop⟩ := fields_of_decode h
  exact ⟨hop, hlen⟩

/-! ### The legal words -/

/-- The words of a list of commands without repetition are as many, and are those that decode to a command of the list
(R57). -/
theorem words_of_commands {l : List Instr} (hwf : ∀ i ∈ l, i.wf = true) (hl : l.Nodup) :
    (l.map encode).Nodup ∧ (l.map encode).length = l.length ∧
      ∀ w, w ∈ l.map encode ↔ ∃ i ∈ l, decode w = .ok i := by
  refine ⟨hl.map_on fun i hi j hj he => ?_, List.length_map .., fun w => ?_⟩
  · have hdec : decode (encode i) = .ok j := decode_eq_ok_iff.2 ⟨hwf j hj, he.symm⟩
    exact Except.ok.inj ((decodeEncodeRoundTrip i (hwf i hi)).symm.trans hdec)
  · rw [List.mem_map]
    exact exists_congr fun i => and_congr_right fun hi => by rw [decode_eq_ok_iff, and_iff_right (hwf i hi)]

/-- The six commands without an operand (R53). -/
def plainCommands : List Instr := [.keyLoad, .enc, .dec, .macInit, .macFinal, .macReset]

/-- MAC_INPUT with each of `n` byte counts from `first` up. -/
def inputCommands (first n : Nat) : List Instr := (List.range' first n).map .macInput

theorem mem_inputCommands {first n : Nat} {i : Instr} :
    i ∈ inputCommands first n ↔ ∃ len, (first ≤ len ∧ len < first + n) ∧ i = .macInput len := by
  simp [inputCommands, List.mem_range'_1, eq_comm]

/-- A well-formed command has no operand or is MAC_INPUT with a count in 0..31 (R52, R57). -/
theorem mem_legalCommands {i : Instr} : i ∈ plainCommands ++ inputCommands 0 32 ↔ i.wf = true := by
  rw [List.mem_append, mem_inputCommands]
  cases i <;> simp [plainCommands, Instr.wf]

/-- The words of MAC_INPUT with the counts of a range of LEN. -/
theorem inputWords {first n : Nat} (hn : first + n ≤ 32) :
    ((inputCommands first n).map encode).Nodup ∧ ((inputCommands first n).map encode).length = n ∧
      ∀ w, w ∈ (inputCommands first n).map encode ↔
        ∃ len, (first ≤ len ∧ len < first + n) ∧ decode w = .ok (.macInput len) := by
  have hwf : ∀ i ∈ inputCommands first n, i.wf = true := by
    intro i hi
    obtain ⟨len, ⟨_, hlt⟩, rfl⟩ := mem_inputCommands.1 hi
    exact decide_eq_true (hlt.trans_le hn)
  have hnodup : (inputCommands first n).Nodup := (List.nodup_range' ..).map fun _ _ => Instr.macInput.inj
  obtain ⟨hnd, hlen, hmem⟩ := words_of_commands hwf hnodup
  refine ⟨hnd, by simp [inputCommands], fun w => (hmem w).trans ?_⟩
  simp [mem_inputCommands]

theorem len_lt_of_decode {w : Word} {len : Nat} (h : decode w = .ok (.macInput len)) : len < 32 :=
  of_decide_eq_true (fields_of_decode h).1

theorem exec_macInput_of_gt {len : Nat} (hlen : 16 < len) (s : State) :
    exec (.macInput len) s = .next (s.failWith .capacity) := by
  have hfirst : firstError (.macInput len) s = .capacity := if_pos hlen
  obtain ⟨hok, _⟩ | ⟨c, _, hc, he⟩ := exec_cases (.macInput len) s
  · cases hok.symm.trans hfirst
  · rw [he, ← hc, hfirst]

/-- Settles O4: each list is the words of a list of commands, which no other words decode to. -/
theorem legalWordCounts : Obligations.LegalWordCounts := by
  refine ⟨?_, ?_, ?_, fun i hi => ⟨encode i, fun v => ?_⟩, fun w hw s => ?_⟩
  · obtain ⟨hnd, hlen, hmem⟩ := words_of_commands (fun _ => mem_legalCommands.1) (by decide)
    refine ⟨_, hnd, hlen, fun w => (hmem w).trans ⟨fun ⟨i, _, hi⟩ => ⟨i, hi⟩, fun ⟨i, hi⟩ => ⟨i, ?_, hi⟩⟩⟩
    exact mem_legalCommands.2 (fields_of_decode hi).1
  · obtain ⟨hnd, hlen, hmem⟩ := inputWords (first := 0) (n := 17) (by decide)
    refine ⟨_, hnd, hlen, fun w => (hmem w).trans (exists_congr fun len => and_congr_left fun _ => by omega)⟩
  · obtain ⟨hnd, hlen, hmem⟩ := inputWords (first := 17) (n := 15) (by decide)
    have hmem' : ∀ w, w ∈ _ ↔ ∃ len, 16 < len ∧ decode w = .ok (.macInput len) := fun w =>
      (hmem w).trans (exists_congr fun len => and_congr_left fun hdec => by
        have hlt := len_lt_of_decode hdec
        omega)
    refine ⟨_, hnd, hlen, hmem', fun w hw s => ?_⟩
    obtain ⟨len, hgt, hdec⟩ := (hmem' w).1 hw
    rw [command_of_decode hdec]
    exact exec_macInput_of_gt hgt s
  · have hwf : i.wf = true := mem_legalCommands.1 (List.mem_append_left _ hi)
    rw [decode_eq_ok_iff, and_iff_right hwf, eq_comm]
  · obtain ⟨i, hi, _⟩ | ⟨_, _, hc⟩ := command_cases w s
    · exact absurd ⟨i, hi⟩ hw
    · exact hc

end Sys2Proof.Machine
end

section
/-! PROOFS. Host lines at the port: the pseudo-instructions WRKEY, WRDATA, RDDATA, CLRERR and CMD (30_encoding.md R60). -/

namespace Sys2Proof.Machine

/-! ### A 16-byte register written word by word -/

/-- The bytes of a word that is put together from four, most significant first (R37). -/
theorem wordByte_of_append (a b c d : Byte) :
    wordByte (a ++ b ++ c ++ d) 0 = a ∧ wordByte (a ++ b ++ c ++ d) 1 = b ∧ wordByte (a ++ b ++ c ++ d) 2 = c ∧
      wordByte (a ++ b ++ c ++ d) 3 = d := by
  have low {n : Nat} (x : BitVec n) (y : Byte) : (x ++ y).extractLsb' 0 8 = y := BitVec.extractLsb'_append_eq_right
  have above {n : Nat} (x : BitVec n) (y : Byte) (p : Nat) : (x ++ y).extractLsb' (p + 8) 8 = x.extractLsb' p 8 := by
    rw [BitVec.extractLsb'_append_eq_of_le (Nat.le_add_left ..), Nat.add_sub_cancel]
  refine ⟨?_, ?_, ?_, low _ d⟩
  · exact (above _ d 16).trans ((above _ c 8).trans BitVec.extractLsb'_append_eq_left)
  · exact (above _ d 8).trans ((above _ c 0).trans (low _ b))
  · exact (above _ d 0).trans (low _ c)

/-- Byte `c` of word `k` is byte `4k + c` of the register (R37). -/
theorem wordByte_getWord (b : Block) (k c : Fin 4) : wordByte (getWord b k) c = b[4 * k.val + c.val] := by
  obtain ⟨h0, h1, h2, h3⟩ := wordByte_of_append b[4 * k.val] b[4 * k.val + 1] b[4 * k.val + 2] b[4 * k.val + 3]
  fin_cases c
  exacts [h0, h1, h2, h3]

/-- A register after word `j` of `b` is written to it (R40). -/
theorem setWord_getWord_get (b r : Block) (j : Fin 4) (i : Nat) (h : i < 16) :
    (setWord r j (getWord b j))[i] = if i / 4 = j.val then b[i] else r[i] := by
  rw [setWord_get, wordByte_getWord]
  refine ite_congr rfl (fun hj => ?_) fun _ => rfl
  congr 1
  show 4 * j.val + i % 4 = i
  omega

/-- What a register that held `r` holds after writes of the words of `b` with the indices `js` (R40). -/
def copyWords (b r : Block) (js : List (Fin 4)) : Block := js.foldl (fun r j => setWord r j (getWord b j)) r

/-- The four words of a block replace all of a register (R37). -/
theorem copyWords_all (b r : Block) : copyWords b r [0, 1, 2, 3] = b := by
  refine Vector.ext fun i h => ?_
  have hword : i / 4 = 0 ∨ i / 4 = 1 ∨ i / 4 = 2 ∨ i / 4 = 3 := by omega
  simp only [copyWords, List.foldl, setWord_getWord_get]
  obtain hi | hi | hi | hi := hword <;> simp [hi]

/-! ### Runs of accesses -/

/-- The completions `l` join those of the port (R8). -/
def State.completeAll (s : State) (l : List Completion) : State :=
  { s with port := { s.port with completed := s.port.completed ++ l } }

@[simp] theorem State.completeAll_nil (s : State) : s.completeAll [] = s := by simp [State.completeAll]

@[simp] theorem State.completeAll_complete (s : State) (m : Nat) (v : Option Word) (l : List Completion) :
    (s.complete m v).completeAll l = s.completeAll ({ master := m, value := v } :: l) := by
  simp [State.completeAll, State.complete]

theorem runActions_cons {h : HostAction} {s t : State} (e : hostAction h s = .next t) (rest : List HostAction) :
    runActions (h :: rest) s = runActions rest t := by
  rw [runActions, e]

theorem runActions_singleton (h : HostAction) (s : State) : runActions [h] s = hostAction h s := by
  unfold runActions
  cases hostAction h s <;> rfl

section
variable (m : Nat) {s : State} (hs : s.inReset = false)
include hs

theorem hostAction_writeAction (r : Reg) (v : Word) :
    hostAction (writeAction m r v) s = completeWrite m (writeReg r v s) :=
  busAccess_write_reg m r v hs

theorem hostAction_readAction (r : Reg) :
    hostAction (readAction m r) s = .next (s.complete m (some (readReg r s))) :=
  busAccess_read_reg m r hs

/-- Writes of words of `b` to KEY or to DATA: `reg` names the register's words, and `put` replaces its block. -/
theorem runActions_copyWords {reg : Fin 4 → Reg} {put : State → Block → State}
    (hreset : ∀ t r, (put t r).inReset = t.inReset)
    (hwrite : ∀ j v t r,
      completeWrite m (writeReg (reg j) v (put t r)) = .next (put (t.complete m none) (setWord r j v)))
    (b r : Block) (js : List (Fin 4)) :
    runActions (js.map fun j => writeAction m (reg j) (getWord b j)) (put s r) =
      .next (put (s.completeAll (.replicate js.length { master := m, value := none })) (copyWords b r js)) := by
  induction js generalizing s r with
  | nil => simp [copyWords, runActions]
  | cons j js ih =>
    have haction := hostAction_writeAction m ((hreset s r).trans hs) (reg j) (getWord b j)
    rw [List.map_cons, runActions_cons (haction.trans (hwrite j _ s r)), ih (s := s.complete m none) hs,
      State.completeAll_complete]
    rfl

theorem runActions_readData (js : List (Fin 4)) :
    runActions (js.map fun j => readAction m (.data j)) s =
      .next (s.completeAll (js.map fun j => { master := m, value := some (getWord s.data j) })) := by
  induction js generalizing s with
  | nil => simp [runActions]
  | cons j js ih =>
    rw [List.map_cons, runActions_cons (hostAction_readAction m hs (.data j)), ih (s := s.complete m _) hs,
      State.completeAll_complete]
    rfl

theorem runActions_wrKey (b : Block) :
    runActions (expandLine m (.wrKey b)) s =
      .next ((s.completeAll (.replicate 4 { master := m, value := none })).setKey b) := by
  have hrun := runActions_copyWords m hs (reg := .key) (put := State.setKey) (fun _ _ => rfl) (fun _ _ _ _ => rfl)
    b s.key [0, 1, 2, 3]
  rwa [copyWords_all] at hrun

theorem runActions_wrData (b : Block) :
    runActions (expandLine m (.wrData b)) s =
      .next ((s.completeAll (.replicate 4 { master := m, value := none })).setData b) := by
  have hrun := runActions_copyWords m hs (reg := .data) (put := State.setData) (fun _ _ => rfl) (fun _ _ _ _ => rfl)
    b s.data [0, 1, 2, 3]
  rwa [copyWords_all] at hrun

theorem runActions_clrErr :
    runActions (expandLine m .clrErr) s = .next (s.clearSticky.complete m none) :=
  (runActions_singleton ..).trans (hostAction_writeAction m hs .status 0x00000008)

theorem runActions_cmd {i : Instr} (hi : i.wf = true) :
    runActions (expandLine m (.cmd i)) s = completeWrite m (exec i s) := by
  refine (runActions_singleton ..).trans ((hostAction_writeAction m hs .cmd (encode i)).trans ?_)
  rw [writeReg_cmd, command_of_decode (decodeEncodeRoundTrip i hi)]

end

/-- Settles O56, line by line. -/
theorem pseudoInstructionsDoWhatTheySay : Obligations.PseudoInstructionsDoWhatTheySay := by
  intro m b s hs
  exact ⟨runActions_wrKey m hs b, runActions_wrData m hs b, runActions_clrErr m hs, fun i hi => runActions_cmd m hs hi,
    _, runActions_readData m hs [0, 1, 2, 3], rfl⟩

end Sys2Proof.Machine
end

section
/-! PROOFS. The field GF(2^8) of 40_aes_functions.md R62 to R64. Its operations are xor-linear in each operand, so two
expressions in them that agree on the eight bytes with one bit set (the powers of `x`) agree on all bytes. -/

namespace Sys2Proof.Machine

/-! ### Induction over bytes by xor -/

/-- The bytes with one bit set whose xor is `b`: the monomials of the polynomial `b` (R62). -/
def monomials (b : Byte) : List Byte := ((List.range 8).filter b.getLsbD).map (1 <<< ·)

theorem xor_monomials : ∀ b : Byte, (monomials b).foldr (· ^^^ ·) 0 = b := by decide +kernel

/-- What holds of the bytes with one bit set, and of `b ^^^ c` where it holds of `b` and `c`, holds of every byte. -/
theorem byte_xor_induction {P : Byte → Prop} (hbit : ∀ i : Fin 8, P (1 <<< i.val))
    (hxor : ∀ b c, P b → P c → P (b ^^^ c)) (b : Byte) : P b := by
  have hlist : ∀ l : List Nat, (∀ i ∈ l, i < 8) → P ((l.map fun i => (1 : Byte) <<< i).foldr (· ^^^ ·) 0) := by
    intro l hl
    induction l with
    | nil => show P (1 ^^^ 1); exact hxor 1 1 (hbit 0) (hbit 0)
    | cons i l ih =>
      exact hxor _ _ (hbit ⟨i, hl i List.mem_cons_self⟩) (ih fun j hj => hl j (List.mem_cons_of_mem i hj))
  rw [← xor_monomials b]
  exact hlist _ fun i hi => List.mem_range.1 (List.mem_filter.1 hi).1

/-! ### Xor-linearity -/

theorem condXor_xor_cond {n : Nat} (p q : Bool) (u v x : BitVec n) :
    (if (p ^^ q) then u ^^^ v ^^^ x else u ^^^ v) = (if p then u ^^^ x else u) ^^^ (if q then v ^^^ x else v) := by
  match p, q with
  | false, false => rfl
  | false, true => exact BitVec.xor_assoc u v x
  | true, false => show u ^^^ v ^^^ x = u ^^^ x ^^^ v; ac_rfl
  | true, true =>
    calc u ^^^ v = u ^^^ v ^^^ (x ^^^ x) := by simp
      _ = u ^^^ x ^^^ (v ^^^ x) := by ac_rfl

theorem condXor_xor_value {n : Nat} (p : Bool) (u v x y : BitVec n) :
    (if p then u ^^^ v ^^^ (x ^^^ y) else u ^^^ v) = (if p then u ^^^ x else u) ^^^ (if p then v ^^^ y else v) := by
  match p with
  | false => rfl
  | true => show u ^^^ v ^^^ (x ^^^ y) = u ^^^ x ^^^ (v ^^^ y); ac_rfl

theorem xtime_xor (a b : Byte) : xtime (a ^^^ b) = xtime a ^^^ xtime b := by
  simpa [xtime, BitVec.shiftLeft_xor_distrib] using
    condXor_xor_cond (a.getLsbD 7) (b.getLsbD 7) (a <<< 1) (b <<< 1) 0x1B

theorem gmulLoop_xor_left (n i : Nat) (a a' b r r' : Byte) :
    gmulLoop n i (a ^^^ a') b (r ^^^ r') = gmulLoop n i a b r ^^^ gmulLoop n i a' b r' := by
  induction n generalizing i a a' r r' with
  | zero => rfl
  | succ n ih => rw [gmulLoop, condXor_xor_value, xtime_xor, ih, gmulLoop, gmulLoop]

theorem gmulLoop_xor_right (n i : Nat) (a b b' r r' : Byte) :
    gmulLoop n i a (b ^^^ b') (r ^^^ r') = gmulLoop n i a b r ^^^ gmulLoop n i a b' r' := by
  induction n generalizing i a r r' with
  | zero => rfl
  | succ n ih => rw [gmulLoop, BitVec.getLsbD_xor, condXor_xor_cond, ih, gmulLoop, gmulLoop]

/-- A product distributes over a sum on the left (R62, R63). -/
theorem gmul_xor_left (a a' b : Byte) : gmul (a ^^^ a') b = gmul a b ^^^ gmul a' b := by
  simpa [gmul] using gmulLoop_xor_left 8 0 a a' b 0 0

/-- A product distributes over a sum on the right (R62, R63). -/
theorem gmul_xor_right (a b b' : Byte) : gmul a (b ^^^ b') = gmul a b ^^^ gmul a b' := by
  simpa [gmul] using gmulLoop_xor_right 8 0 a b b' 0 0

theorem foldl_xor {n : Nat} {f g h : BitVec n → Nat → BitVec n}
    (hstep : ∀ u v i, f (u ^^^ v) i = g u i ^^^ h v i) (l : List Nat) (u v : BitVec n) :
    l.foldl f (u ^^^ v) = l.foldl g u ^^^ l.foldl h v := by
  induction l generalizing u v with
  | nil => rfl
  | cons i l ih => rw [List.foldl_cons, hstep, ih, List.foldl_cons, List.foldl_cons]

/-- One step of `polyMul`: add `a x^i` where `b` has the term `x^i`. -/
def polyMulStep (a b : Byte) (acc : BitVec 16) (i : Nat) : BitVec 16 :=
  if b.getLsbD i then acc ^^^ (a.setWidth 16 <<< i) else acc

theorem polyMul_eq_foldl (a b : Byte) : polyMul a b = (List.range 8).foldl (polyMulStep a b) (0 ^^^ 0) := rfl

theorem polyMul_xor_left (a a' b : Byte) : polyMul (a ^^^ a') b = polyMul a b ^^^ polyMul a' b := by
  rw [polyMul_eq_foldl]
  refine foldl_xor (fun u v i => ?_) _ 0 0
  rw [polyMulStep, BitVec.setWidth_xor, BitVec.shiftLeft_xor_distrib]
  exact condXor_xor_value ..

theorem polyMul_xor_right (a b b' : Byte) : polyMul a (b ^^^ b') = polyMul a b ^^^ polyMul a b' := by
  rw [polyMul_eq_foldl]
  refine foldl_xor (fun u v i => ?_) _ 0 0
  rw [polyMulStep, BitVec.getLsbD_xor]
  exact condXor_xor_cond ..

/-- One step of `polyMod`: cancel the term `x^(i+8)` (R63). -/
def polyModStep (acc : BitVec 16) (i : Nat) : BitVec 16 :=
  if acc.getLsbD (i + 8) then acc ^^^ (0x11B <<< i) else acc

theorem polyModStep_xor (u v : BitVec 16) (i : Nat) :
    polyModStep (u ^^^ v) i = polyModStep u i ^^^ polyModStep v i := by
  rw [polyModStep, BitVec.getLsbD_xor]
  exact condXor_xor_cond ..

theorem polyMod_eq_foldl (v : BitVec 16) : polyMod v = ([7, 6, 5, 4, 3, 2, 1, 0].foldl polyModStep v).setWidth 8 := rfl

/-- The remainder of a sum is the sum of the remainders (R63). -/
theorem polyMod_xor (u v : BitVec 16) : polyMod (u ^^^ v) = polyMod u ^^^ polyMod v := by
  simp only [polyMod_eq_foldl, foldl_xor polyModStep_xor, BitVec.setWidth_xor]

/-! ### The product of polynomials -/

theorem gmul_monomials : ∀ i j : Fin 8,
    gmul (1 <<< i.val) (1 <<< j.val) = polyMod (polyMul (1 <<< i.val) (1 <<< j.val)) := by
  decide +kernel

/-- Settles O36: both sides are xor-linear in `a` and in `b`, so it is enough that they agree on powers of `x`. -/
theorem gmulIsPolynomialProduct : Obligations.GmulIsPolynomialProduct := by
  intro a b
  induction a using byte_xor_induction with
  | hxor a a' ha ha' => rw [gmul_xor_left, polyMul_xor_left, polyMod_xor, ha, ha']
  | hbit i =>
    induction b using byte_xor_induction with
    | hxor b b' hb hb' => rw [gmul_xor_right, polyMul_xor_right, polyMod_xor, hb, hb']
    | hbit j => exact gmul_monomials i j

/-! ### Laws of the field -/

theorem gmul_zero_left (b : Byte) : gmul 0 b = 0 := by
  simpa using gmul_xor_left b b b

theorem gmul_one_left (b : Byte) : gmul 1 b = b := by
  induction b using byte_xor_induction with
  | hxor b c hb hc => rw [gmul_xor_right, hb, hc]
  | hbit i => decide +kernel +revert

theorem gmul_comm (a b : Byte) : gmul a b = gmul b a := by
  induction a using byte_xor_induction with
  | hxor a a' ha ha' => rw [gmul_xor_left, gmul_xor_right, ha, ha']
  | hbit i =>
    induction b using byte_xor_induction with
    | hxor b b' hb hb' => rw [gmul_xor_left, gmul_xor_right, hb, hb']
    | hbit j => decide +kernel +revert

theorem gmul_assoc (a b c : Byte) : gmul (gmul a b) c = gmul a (gmul b c) := by
  induction a using byte_xor_induction with
  | hxor a a' ha ha' => simp only [gmul_xor_left, ha, ha']
  | hbit i =>
    induction b using byte_xor_induction with
    | hxor b b' hb hb' => simp only [gmul_xor_left, gmul_xor_right, hb, hb']
    | hbit j =>
      induction c using byte_xor_induction with
      | hxor c c' hc hc' => simp only [gmul_xor_right, hc, hc']
      | hbit k => decide +kernel +revert

/-- A byte has at most one inverse (R64). -/
theorem gmul_eq_one_unique {b c d : Byte} (hc : gmul b c = 1) (hd : gmul b d = 1) : c = d := by
  calc c = gmul (gmul b d) c := by rw [hd, gmul_one_left]
    _ = gmul (gmul b c) d := by rw [gmul_assoc, gmul_comm d c, ← gmul_assoc]
    _ = d := by rw [hc, gmul_one_left]

end Sys2Proof.Machine
end

section
/-! PROOFS. The S-box and its inverse (40_aes_functions.md R64 to R66): the printed table names the inverse of every byte,
namely the byte that R65's affine map takes to the entry. -/

namespace Sys2Proof.Machine

/-! ### The multiplicative inverse -/

/-- The search of R64 finds an inverse where there is one. -/
theorem gmul_gfInv {b c : Byte} (h : gmul b c = 1) : gmul b (gfInv b) = 1 := by
  have hmem : c ∈ (List.range 256).map (BitVec.ofNat 8) :=
    List.mem_map.2 ⟨c.toNat, List.mem_range.2 c.isLt, by simp⟩
  rw [gfInv]
  cases hfind : ((List.range 256).map (BitVec.ofNat 8)).find? fun c => gmul b c == 1 with
  | none => exact absurd (beq_iff_eq.2 h) (List.find?_eq_none.1 hfind c hmem)
  | some d => simpa using List.find?_some hfind

theorem gfInv_eq_of_gmul {b c : Byte} (h : gmul b c = 1) : gfInv b = c := gmul_eq_one_unique (gmul_gfInv h) h

theorem gfInv_zero : gfInv 0 = 0 := by
  have hfind : ((List.range 256).map (BitVec.ofNat 8)).find? (fun c => gmul 0 c == 1) = none :=
    List.find?_eq_none.2 fun c _ => by rw [gmul_zero_left]; decide
  rw [gfInv, hfind, Option.getD_none]

/-! ### The tables -/

/-- The byte that the affine map of R65 takes to `b`. -/
def invAffine (b : Byte) : Byte :=
  BitVec.ofFnLE fun i : Fin 8 =>
    (0x05 : Byte).getLsbD i.val ^^ b.getLsbD ((i.val + 2) % 8) ^^ b.getLsbD ((i.val + 5) % 8) ^^
      b.getLsbD ((i.val + 7) % 8)

theorem affine_invAffine : ∀ b : Byte, affine (invAffine b) = b := by decide +kernel

/-- The printed entry of a nonzero byte is the affine image of an inverse of it (R65). -/
theorem gmul_invAffine_sbox : ∀ b : Byte, b ≠ 0 → gmul b (invAffine (sbox b)) = 1 := by decide +kernel

theorem invAffine_sbox_zero : invAffine (sbox 0) = 0 := by decide +kernel

theorem gfInv_eq_invAffine_sbox (b : Byte) : gfInv b = invAffine (sbox b) := by
  by_cases hb : b = 0
  · rw [hb, gfInv_zero, invAffine_sbox_zero]
  · exact gfInv_eq_of_gmul (gmul_invAffine_sbox b hb)

/-- Settles O37: the table provides the inverse that `gfInv` searches for, and an inverse is unique. -/
theorem sboxIsAffineOfInverse : Obligations.SboxIsAffineOfInverse := by
  refine ⟨fun b hb c => ⟨fun h => (gfInv_eq_of_gmul h).symm, fun h => ?_⟩, gfInv_zero, fun b => ?_⟩
  · rw [h]
    exact gmul_gfInv (gmul_invAffine_sbox b hb)
  · rw [gfInv_eq_invAffine_sbox, affine_invAffine]

@[simp] theorem invSbox_sbox : ∀ b : Byte, invSbox (sbox b) = b := by decide +kernel

@[simp] theorem sbox_invSbox : ∀ b : Byte, sbox (invSbox b) = b := by decide +kernel

/-- Settles O38: each table undoes the other. -/
theorem invSboxInvertsSbox : Obligations.InvSboxInvertsSbox := fun a b =>
  ⟨fun h => h ▸ invSbox_sbox a, fun h => h ▸ sbox_invSbox b⟩

end Sys2Proof.Machine
end

section
/-! PROOFS. The steps of a round, each with its inverse (40_aes_functions.md R68 to R74), and from them Cipher and InvCipher
(R81 to R83) and the commands ENC and DEC (41_cipher.md R87, R88). -/

namespace Sys2Proof.Machine

/-! ### SubBytes and ShiftRows -/

@[simp] theorem invSubBytes_subBytes (B : Block) : invSubBytes (subBytes B) = B :=
  Vector.ext fun i h => by simp

@[simp] theorem subBytes_invSubBytes (B : Block) : subBytes (invSubBytes B) = B :=
  Vector.ext fun i h => by simp

@[simp] theorem cell_shiftRows (B : Block) (r c : Fin 4) : cell (shiftRows B) r c = cell B r (c + r) := cell_ofCells ..

@[simp] theorem cell_invShiftRows (B : Block) (r c : Fin 4) : cell (invShiftRows B) r c = cell B r (c - r) :=
  cell_ofCells ..

@[simp] theorem invShiftRows_shiftRows (B : Block) : invShiftRows (shiftRows B) = B :=
  block_ext_cells fun r c => by rw [cell_invShiftRows, cell_shiftRows, sub_add_cancel]

@[simp] theorem shiftRows_invShiftRows (B : Block) : shiftRows (invShiftRows B) = B :=
  block_ext_cells fun r c => by rw [cell_shiftRows, cell_invShiftRows, add_sub_cancel_right]

/-- Settles O39, cell by cell. -/
theorem shiftRowsRotatesRows : Obligations.ShiftRowsRotatesRows :=
  ⟨cell_shiftRows, cell_invShiftRows, fun B => ⟨invShiftRows_shiftRows B, shiftRows_invShiftRows B⟩⟩

/-! ### MixColumns -/

theorem mixColumn_xor (s t : Quad) : mixColumn (xorBytes s t) = xorBytes (mixColumn s) (mixColumn t) := by
  refine Vector.ext fun i h => ?_
  rw [xorBytes_get]
  match i, h with
  | 0, _ | 1, _ | 2, _ | 3, _ =>
    simp only [mixColumn, xorBytes_get, gmul_xor_right, Vector.getElem_mk, List.getElem_toArray, List.getElem_cons_zero,
      List.getElem_cons_succ]
    ac_rfl

theorem invMixColumn_xor (s t : Quad) : invMixColumn (xorBytes s t) = xorBytes (invMixColumn s) (invMixColumn t) := by
  refine Vector.ext fun i h => ?_
  rw [xorBytes_get]
  match i, h with
  | 0, _ | 1, _ | 2, _ | 3, _ =>
    simp only [invMixColumn, xorBytes_get, gmul_xor_right, Vector.getElem_mk, List.getElem_toArray, List.getElem_cons_zero,
      List.getElem_cons_succ]
    ac_rfl

/-- The column with the byte `b` in row `k` and 00 elsewhere. -/
def unitColumn (k : Fin 4) (b : Byte) : Quad := Vector.ofFn fun r => if r = k then b else 0

theorem unitColumn_xor (k : Fin 4) (b c : Byte) :
    unitColumn k (b ^^^ c) = xorBytes (unitColumn k b) (unitColumn k c) :=
  Vector.ext fun i h => by simp [unitColumn]; split <;> simp

theorem xor_unitColumns (s : Quad) :
    xorBytes (xorBytes (unitColumn 0 s[0]) (unitColumn 1 s[1])) (xorBytes (unitColumn 2 s[2]) (unitColumn 3 s[3])) = s :=
  Vector.ext fun i h => by
    match i, h with
    | 0, _ | 1, _ | 2, _ | 3, _ => simp [unitColumn]

/-- A map of columns that is xor-linear and fixes the 32 columns with one bit set fixes every column. -/
theorem column_fixed_of_xor {f : Quad → Quad} (hxor : ∀ s t, f (xorBytes s t) = xorBytes (f s) (f t))
    (hbit : ∀ (k : Fin 4) (i : Fin 8), f (unitColumn k (1 <<< i.val)) = unitColumn k (1 <<< i.val)) (s : Quad) :
    f s = s := by
  have hunit (k : Fin 4) (b : Byte) : f (unitColumn k b) = unitColumn k b := by
    induction b using byte_xor_induction with
    | hbit i => exact hbit k i
    | hxor b c hb hc => rw [unitColumn_xor, hxor, hb, hc]
  rw [← xor_unitColumns s, hxor, hxor, hxor, hunit, hunit, hunit, hunit]

/-- The matrices of R70 and R74 undo each other on one column. -/
@[simp] theorem invMixColumn_mixColumn (s : Quad) : invMixColumn (mixColumn s) = s :=
  column_fixed_of_xor (f := fun s => invMixColumn (mixColumn s))
    (fun s t => by simp only [mixColumn_xor, invMixColumn_xor]) (by decide +kernel) s

@[simp] theorem mixColumn_invMixColumn (s : Quad) : mixColumn (invMixColumn s) = s :=
  column_fixed_of_xor (f := fun s => mixColumn (invMixColumn s))
    (fun s t => by simp only [mixColumn_xor, invMixColumn_xor]) (by decide +kernel) s

@[simp] theorem cell_mixColumns (B : Block) (r c : Fin 4) : cell (mixColumns B) r c = (mixColumn (column B c))[r] :=
  cell_ofColumns ..

@[simp] theorem cell_invMixColumns (B : Block) (r c : Fin 4) :
    cell (invMixColumns B) r c = (invMixColumn (column B c))[r] := cell_ofColumns ..

/-- Storing the columns of a block gives the block (R67). -/
theorem ofColumns_column (B : Block) : ofColumns (column B) = B :=
  block_ext_cells fun r c => by rw [cell_ofColumns, column_get]

@[simp] theorem invMixColumns_mixColumns (B : Block) : invMixColumns (mixColumns B) = B := by
  simp [invMixColumns, mixColumns, ofColumns_column]

@[simp] theorem mixColumns_invMixColumns (B : Block) : mixColumns (invMixColumns B) = B := by
  simp [invMixColumns, mixColumns, ofColumns_column]

/-- Settles O40: the rows of each matrix are the model's equations for a column. -/
theorem invMixColumnsInvertsMixColumns : Obligations.InvMixColumnsInvertsMixColumns := by
  intro B
  refine ⟨fun c => ?_, invMixColumns_mixColumns B, mixColumns_invMixColumns B⟩
  simp only [cell_mixColumns, cell_invMixColumns]
  exact ⟨rfl, rfl, rfl, rfl, rfl, rfl, rfl, rfl⟩

/-! ### Cipher and InvCipher -/

@[simp] theorem addRoundKey_cancel (B k : Block) : addRoundKey (addRoundKey B k) k = B := xorBytes_cancel B k

/-- Rounds that undo each other one by one do so in the reverse order: `e` turns what rounds `f` hold between rounds into
what rounds `g` do. -/
theorem foldl_reverse_cancel {α β γ : Type} {f : α → γ → α} {g : β → γ → β} {e : α → β}
    (hround : ∀ s i, g (e (f s i)) i = e s) (l : List γ) (s : α) : l.reverse.foldl g (e (l.foldl f s)) = e s := by
  induction l generalizing s with
  | nil => rfl
  | cons i l ih => rw [List.reverse_cons, List.foldl_append, List.foldl_cons, List.foldl_nil, List.foldl_cons, ih, hround]

/-- A round of InvCipher meets the state of Cipher after SubBytes and ShiftRows (R81, R82). -/
theorem invCipherRound_cipherRound (rk : Schedule) (s : Block) (i : Fin 11) :
    invCipherRound rk (shiftRows (subBytes (cipherRound rk s i))) i = shiftRows (subBytes s) := by
  simp [invCipherRound, cipherRound]

theorem cipherRound_invCipherRound (rk : Schedule) (s : Block) (i : Fin 11) :
    cipherRound rk (invSubBytes (invShiftRows (invCipherRound rk s i))) i = invSubBytes (invShiftRows s) := by
  simp [invCipherRound, cipherRound]

theorem invCipher_cipher (rk : Schedule) (B : Block) : invCipher rk (cipher rk B) = B := by
  have hrounds := foldl_reverse_cancel (e := fun s => shiftRows (subBytes s)) (invCipherRound_cipherRound rk)
    [1, 2, 3, 4, 5, 6, 7, 8, 9] (addRoundKey B rk[0])
  rw [invCipher, cipher, addRoundKey_cancel]
  refine (congrArg (fun s => addRoundKey (invSubBytes (invShiftRows s)) rk[0]) hrounds).trans ?_
  simp

theorem cipher_invCipher (rk : Schedule) (B : Block) : cipher rk (invCipher rk B) = B := by
  have hrounds := foldl_reverse_cancel (e := fun s => invSubBytes (invShiftRows s)) (cipherRound_invCipherRound rk)
    [9, 8, 7, 6, 5, 4, 3, 2, 1] (addRoundKey B rk[10])
  rw [cipher, invCipher, addRoundKey_cancel]
  refine (congrArg (fun s => addRoundKey (shiftRows (subBytes s)) rk[10]) hrounds).trans ?_
  simp

/-- Settles O42, round by round from the inner one outwards. -/
theorem invCipherInvertsCipher : Obligations.InvCipherInvertsCipher :=
  fun rk B => ⟨invCipher_cipher rk B, cipher_invCipher rk B⟩

/-! ### ENC and DEC -/

section
variable {s : State} (hvalid : s.cipherCtx.valid = true)
include hvalid

theorem exec_enc_of_valid : exec .enc s = .next (s.setData (cipher s.cipherCtx.rk s.data)).succeed := by
  obtain ⟨_, h⟩ | ⟨hinvalid, _⟩ := execEnc_cases s
  · exact h
  · cases hvalid.symm.trans hinvalid

theorem exec_dec_of_valid : exec .dec s = .next (s.setData (invCipher s.cipherCtx.rk s.data)).succeed := by
  obtain ⟨_, h⟩ | ⟨hinvalid, _⟩ := execDec_cases s
  · exact h
  · cases hvalid.symm.trans hinvalid

end

/-- Settles O25: neither command changes the schedule, so the second undoes the first. -/
theorem encThenDecRestoresData : Obligations.EncThenDecRestoresData := by
  intro s hvalid
  refine ⟨⟨_, exec_enc_of_valid hvalid, ?_⟩, ⟨_, exec_dec_of_valid hvalid, ?_⟩⟩
  · rw [exec_dec_of_valid (by simpa using hvalid)]
    simp [invCipher_cipher, State.setData, State.succeed]
  · rw [exec_enc_of_valid (by simpa using hvalid)]
    simp [cipher_invCipher, State.setData, State.succeed]

end Sys2Proof.Machine
end

section
/-! PROOFS. KeyExpansion (40_aes_functions.md R75 to R80): every list of words its loop passes through follows the recurrence,
and the round keys hold the words of the last one. -/

namespace Sys2Proof.Machine

/-- The words so far begin with those of the key, and each later one is made from the word four before it and the word
before it (R77). -/
structure FollowsRecurrence (K : Block) (ws : List Quad) : Prop where
  key : ∀ i : Fin 4, ws.getD i.val zeroQuad = column K i
  next : ∀ i, 4 ≤ i → i < ws.length →
    ws.getD i zeroQuad = xorBytes (ws.getD (i - 4) zeroQuad) (scheduleTemp i (ws.getD (i - 1) zeroQuad))

theorem followsRecurrence_keyWords (K : Block) : FollowsRecurrence K (keyWords K) where
  key i := by fin_cases i <;> rfl
  next i hi hlen := absurd hlen (Nat.not_lt.2 hi)

theorem expandStep_getD_of_lt (ws : List Quad) (n : Nat) {i : Nat} (hi : i < ws.length) :
    (expandStep ws n).getD i zeroQuad = ws.getD i zeroQuad := List.getD_append _ _ _ _ hi

theorem expandStep_getD_length (ws : List Quad) (n : Nat) :
    (expandStep ws n).getD ws.length zeroQuad =
      xorBytes (ws.getD (n - 4) zeroQuad) (scheduleTemp n (ws.getD (n - 1) zeroQuad)) := by
  simp [expandStep]

@[simp] theorem expandStep_length (ws : List Quad) (n : Nat) : (expandStep ws n).length = ws.length + 1 := by
  simp [expandStep]

/-- A turn of the loop keeps the recurrence when it appends the next word (R77). -/
theorem followsRecurrence_expandStep {K : Block} {ws : List Quad} (h : FollowsRecurrence K ws) (hlen : 4 ≤ ws.length) :
    FollowsRecurrence K (expandStep ws ws.length) where
  key i := by rw [expandStep_getD_of_lt _ _ (by omega), h.key]
  next i hi hi' := by
    rw [expandStep_length] at hi'
    rw [expandStep_getD_of_lt _ _ (i := i - 4) (by omega), expandStep_getD_of_lt _ _ (i := i - 1) (by omega)]
    obtain hold | rfl := Nat.lt_succ_iff_lt_or_eq.1 hi'
    · rw [expandStep_getD_of_lt _ _ hold, h.next i hi hold]
    · exact expandStep_getD_length ws _

/-- `n` turns of the loop append `n` words and keep the recurrence (R77). -/
theorem followsRecurrence_loop (K : Block) (n : Nat) :
    ((List.range' 4 n).foldl expandStep (keyWords K)).length = 4 + n ∧
      FollowsRecurrence K ((List.range' 4 n).foldl expandStep (keyWords K)) := by
  induction n with
  | zero => exact ⟨rfl, followsRecurrence_keyWords K⟩
  | succ n ih =>
    obtain ⟨hlen, hrec⟩ := ih
    rw [List.range'_concat, List.foldl_append, List.foldl_cons, List.foldl_nil, Nat.one_mul]
    refine ⟨?_, ?_⟩
    · rw [expandStep_length, hlen, Nat.add_assoc]
    · rw [← hlen]
      exact followsRecurrence_expandStep hrec (by omega)

/-! ### The round keys -/

/-- Bytes `4c .. 4c+3` of a round key are those of word `4j + c` (R79). -/
theorem roundKey_get (ws : List Quad) (j : Nat) (c k : Fin 4) :
    (roundKey ws j)[4 * c.val + k.val] = (ws.getD (4 * j + c.val) zeroQuad)[k] := by
  rw [← cell_ofColumns (fun c => ws.getD (4 * j + c.val) zeroQuad) k c, cell]
  congr 1
  omega

/-- The first round key is the key (R80). -/
theorem roundKey_zero {K : Block} {ws : List Quad} (h : FollowsRecurrence K ws) : roundKey ws 0 = K := by
  refine block_ext_cells fun r c => ?_
  rw [roundKey, cell_ofColumns, Nat.mul_zero, Nat.zero_add, h.key, column_get]

/-- The word the schedule holds at `i` is word `i` of the list that its round keys are made of (R79). -/
theorem scheduleWord_of_roundKeys {rk : Schedule} {ws : List Quad} (h : ∀ j (hj : j < 11), rk[j] = roundKey ws j)
    (i : Fin 44) : scheduleWord rk i = ws.getD i.val zeroQuad := by
  refine Vector.ext fun k hk => ?_
  have hword := roundKey_get ws (i.val / 4) ⟨i.val % 4, by omega⟩ ⟨k, hk⟩
  simp only [Nat.div_add_mod] at hword
  simpa [scheduleWord, h] using hword

/-- The schedule of a key holds 44 words that follow the recurrence (R77, R79). -/
theorem keyExpansion_words (K : Block) :
    ∃ ws : List Quad, ws.length = 44 ∧ FollowsRecurrence K ws ∧ ∀ j (hj : j < 11), (keyExpansion K)[j] = roundKey ws j := by
  obtain ⟨hlen, hrec⟩ := followsRecurrence_loop K 40
  exact ⟨_, hlen, hrec, fun j hj => by simp [keyExpansion, expandWords]⟩

/-- Settles O41: the words are those of the loop, and the loop keeps the recurrence. -/
theorem keyExpansionRecurrence : Obligations.KeyExpansionRecurrence := by
  intro K
  obtain ⟨ws, hlen, hws, hround⟩ := keyExpansion_words K
  simp only [scheduleWord_of_roundKeys hround]
  refine ⟨(hround 0 (by decide)).trans (roundKey_zero hws), fun i k => ?_, fun i hi => ?_⟩
  · simp only [hws.key, column_get, cell, Nat.add_comm]
  · exact hws.next i.val hi (hlen.symm ▸ i.isLt)

end Sys2Proof.Machine
end

section
/-! PROOFS. The cipher commands, each by its only word and its whole effect (41_cipher.md R86 to R88). -/

namespace Sys2Proof.Machine

/-- The word of a well-formed command is the only one that decodes to it (R57). -/
theorem decode_eq_ok_iff_of_encode {i : Instr} {v w : Word} (hi : i.wf = true) (hv : encode i = v) :
    decode w = .ok i ↔ w = v := by
  rw [decode_eq_ok_iff, and_iff_right hi, hv, eq_comm]

/-- A command fails with the first check that applies, and changes ERR and ESTICKY alone (R112, R114). -/
theorem exec_of_firstError {i : Instr} {s : State} {c : ErrCode} (hc : c ≠ .ok) (h : firstError i s = c) :
    exec i s = .next (s.failWith c) := by
  obtain ⟨hok, _⟩ | ⟨d, _, hd, he⟩ := exec_cases i s
  · exact absurd (h.symm.trans hok) hc
  · rw [he, ← hd, h]

/-- Settles O22: KEY_LOAD has no check. -/
theorem keyLoadLoadsTheSchedule : Obligations.KeyLoadLoadsTheSchedule :=
  ⟨fun _ => decode_eq_ok_iff_of_encode rfl (by decide), execKeyLoad_eq⟩

section
variable {s : State} (hinvalid : s.cipherCtx.valid = false)
include hinvalid

theorem firstError_enc_of_invalid : firstError .enc s = .noKey := by simp [firstError, hinvalid]

theorem firstError_dec_of_invalid : firstError .dec s = .noKey := by simp [firstError, hinvalid]

end

/-- Settles O23: CKEY_VALID is the only check of ENC. -/
theorem encEncryptsDataInPlace : Obligations.EncEncryptsDataInPlace :=
  ⟨fun _ => decode_eq_ok_iff_of_encode rfl (by decide), fun _ =>
    ⟨exec_enc_of_valid, fun hinvalid => exec_of_firstError nofun (firstError_enc_of_invalid hinvalid)⟩⟩

/-- Settles O24: CKEY_VALID is the only check of DEC. -/
theorem decDecryptsDataInPlace : Obligations.DecDecryptsDataInPlace :=
  ⟨fun _ => decode_eq_ok_iff_of_encode rfl (by decide), fun _ =>
    ⟨exec_dec_of_valid, fun hinvalid => exec_of_firstError nofun (firstError_dec_of_invalid hinvalid)⟩⟩

end Sys2Proof.Machine
end

section
/-! PROOFS. The block functions of the CMAC engine: doubling (42_cmac.md R89) and padding (R91). -/

namespace Sys2Proof.Machine

/-- A field of `v` and the byte below it are one field of `v`. -/
theorem extractLsb'_append_byte {n : Nat} (v : BitVec n) (k w : Nat) :
    v.extractLsb' (k + 8) w ++ v.extractLsb' k 8 = v.extractLsb' k (w + 8) :=
  BitVec.extractLsb'_append_extractLsb'_eq_extractLsb' rfl

/-- The number of a block that is made from a number is that number (R10, R89). -/
theorem bitsOfBlock_blockOfBits (v : BitVec 128) : bitsOfBlock (blockOfBits v) = v := by
  simp only [bitsOfBlock, blockOfBits_get, Nat.reduceSub, Nat.reduceMul, extractLsb'_append_byte,
    BitVec.extractLsb'_eq_self]

/-- Settles O43: Dbl works on the number of the block and makes a block of the result. -/
theorem dblShiftsAndReduces : Obligations.DblShiftsAndReduces := fun _ => bitsOfBlock_blockOfBits _

/-- The bytes of a block from `n` up have no part in `Pad(B, n)` (R91). -/
theorem pad_congr {B C : Block} {n : Nat} (h : ∀ i : Fin 16, i.val < n → B[i] = C[i]) : pad B n = pad C n := by
  refine Vector.ext fun i hi => ?_
  rw [pad_get, pad_get]
  by_cases hn : i < n
  · rw [if_pos hn, if_pos hn]
    exact h ⟨i, hi⟩ hn
  · rw [if_neg hn, if_neg hn]

/-- Settles O44, range by range. -/
theorem padKeepsTheFirstBytes : Obligations.PadKeepsTheFirstBytes := by
  refine fun B C n _ => ⟨fun i => ⟨fun hlt => ?_, fun heq => ?_, fun hgt => ?_⟩, pad_congr⟩
  · simp [hlt]
  · simp [heq]
  · simp [Nat.not_lt.2 (Nat.le_of_lt hgt), Nat.ne_of_gt hgt]

end Sys2Proof.Machine
end

section
/-! PROOFS. The MAC commands, each by its words and its whole effect (42_cmac.md R95 to R98), and the bytes of DATA that
MAC_INPUT does not read (R96). -/

namespace Sys2Proof.Machine

/-- A command that no check stops ends with its effect and ERR at 0 (R115). -/
theorem exec_of_firstError_ok {i : Instr} {s : State} (h : firstError i s = .ok) :
    exec i s = .next (commandEffect i s).succeed := by
  obtain ⟨_, he⟩ | ⟨c, hc, hf, _⟩ := exec_cases i s
  · exact he
  · exact absurd (hf.symm.trans h) hc

/-- The engine takes input and can be finished: the two lifecycle states between a start and MAC_FINAL (R96, R97). -/
def TakesInput (m : MacContext) : Prop := m.mstate = .fresh ∨ m.mstate = .accumulating

theorem takesInput_iff {m : MacContext} : TakesInput m ↔ m.mstate ≠ .unkeyed ∧ m.mstate ≠ .finalized := by
  cases h : m.mstate <;> simp [TakesInput, h]

/-- What MAC_INPUT does to the MAC context, with MSTATE by itself (R96). -/
theorem inputContext_eq (m : MacContext) (d : Block) (len : Nat) :
    inputContext m d len =
      { absorbAll m (inputBytes d len) with mstate := if len = 0 then m.mstate else .accumulating } := by
  obtain rfl | hlen := len.eq_zero_or_pos
  · rfl
  · rw [inputContext, if_pos hlen, if_neg (Nat.ne_of_gt hlen)]

theorem exec_macInput_of_takesInput {len : Nat} {s : State} (hlen : len ≤ 16) (hm : TakesInput s.macCtx) :
    exec (.macInput len) s = .next (s.setMacCtx (inputContext s.macCtx s.data len)).succeed :=
  exec_of_firstError_ok (firstError_macInput_ok.2 ⟨hlen, takesInput_iff.1 hm⟩)

theorem exec_macFinal_of_takesInput {s : State} (hm : TakesInput s.macCtx) :
    exec .macFinal s = .next ((s.setData (tag s.macCtx)).setMacCtx { s.macCtx with mstate := .finalized }).succeed :=
  exec_of_firstError_ok (firstError_macFinal_ok.2 (takesInput_iff.1 hm))

theorem exec_macReset_of_keyed {s : State} (hm : s.macCtx.mstate ≠ .unkeyed) :
    exec .macReset s = .next (s.setMacCtx (restartMac s.macCtx)).succeed :=
  exec_of_firstError_ok (firstError_macReset_ok.2 hm)

/-- Settles O26: MAC_INIT has no check. -/
theorem macInitBindsTheKey : Obligations.MacInitBindsTheKey :=
  ⟨fun _ => decode_eq_ok_iff_of_encode rfl (by decide), execMacInit_eq⟩

/-- The word of MAC_INPUT, as a number (R51, R53). -/
theorem encode_macInput {len : Nat} (hlen : len < 32) :
    encode (.macInput len) = BitVec.ofNat 32 (16 * len + 5) := by
  rw [← BitVec.toNat_inj, encode_toNat]
  simp [lenCode, opCode]
  omega

/-- Settles O27: what the checks leave through absorbs the bytes, and the first check that applies is the error. -/
theorem macInputAbsorbsData : Obligations.MacInputAbsorbsData := by
  refine ⟨fun len w hlen => decode_eq_ok_iff_of_encode (decide_eq_true hlen) (encode_macInput hlen),
    fun len s => ⟨fun hlen hm => ?_, fun hlen => exec_macInput_of_gt hlen s, fun hlen hm => ?_, fun hlen hm => ?_⟩⟩
  · rw [exec_macInput_of_takesInput hlen hm, inputContext_eq]
    rfl
  · exact exec_of_firstError nofun (by simp [firstError, Nat.not_lt.2 hlen, hm])
  · exact exec_of_firstError nofun (by simp [firstError, Nat.not_lt.2 hlen, hm])

/-- The tag of R94 with the subkeys of R90 and the last block of R93 written out. -/
theorem tag_eq (m : MacContext) :
    tag m = cipher m.rk (xorBytes m.x
      (if m.blen.val = 16 then xorBytes m.buf (dbl (cipher m.rk zeroBlock))
        else xorBytes (pad m.buf m.blen.val) (dbl (dbl (cipher m.rk zeroBlock))))) := by
  simp only [tag, lastBlock, Fin.ext_iff, subkey1, subkey2, subkeyL]
  rfl

/-- Settles O28: MSTATE is the only check of MAC_FINAL. -/
theorem macFinalWritesTheTag : Obligations.MacFinalWritesTheTag := by
  refine ⟨fun _ => decode_eq_ok_iff_of_encode rfl (by decide), fun s => ⟨fun hm => ?_, fun hm => ?_, fun hm => ?_⟩⟩
  · rw [exec_macFinal_of_takesInput hm, tag_eq]
    rfl
  · exact exec_of_firstError nofun (by simp [firstError, hm])
  · exact exec_of_firstError nofun (by simp [firstError, hm])

/-- Settles O29: a bound key is all that MAC_RESET asks for. -/
theorem macResetKeepsTheKey : Obligations.MacResetKeepsTheKey :=
  ⟨fun _ => decode_eq_ok_iff_of_encode rfl (by decide), fun _ =>
    ⟨exec_macReset_of_keyed, fun hm => exec_of_firstError nofun (if_pos hm)⟩⟩

/-- The byte operand of MAC_INPUT is the first `len` bytes of DATA and nothing else (R96). -/
theorem inputBytes_congr {d e : Block} {len : Nat} (h : ∀ i : Fin 16, i.val < len → d[i] = e[i]) :
    inputBytes d len = inputBytes e len := by
  refine List.ext_getElem (by simp [inputBytes]) fun i hd _ => ?_
  obtain ⟨hlen, h16⟩ : i < len ∧ i < 16 := by simpa [inputBytes] using hd
  simpa [inputBytes] using h ⟨i, h16⟩ hlen

/-- Settles O30: neither the checks nor the effect of MAC_INPUT look at DATA beyond its byte operand. -/
theorem macInputIgnoresDataBeyondLen : Obligations.MacInputIgnoresDataBeyondLen := by
  intro len s t d hd h
  refine exec_commutes (·.setData d) (fun _ => rfl) (fun _ _ => rfl) rfl ?_ h
  simp only [commandEffect, State.setData_macCtx, State.setData_data, inputContext_eq, inputBytes_congr hd]
  rfl

end Sys2Proof.Machine
end

section
/-! PROOFS. What the MAC engine holds of the byte stream it has absorbed (42_cmac.md R92, R100, R101): the invariant of
`Absorb`, from any accumulator, and what it says of one MAC_INPUT (R96). -/

namespace Sys2Proof.Machine

/-! ### The CBC chain of a stream -/

/-- The CBC chain of the first `i` blocks of a stream, as in R100 but from any start value. -/
def chainFrom (rk : Schedule) (x : Block) (S : List Byte) : Nat → Block
  | 0 => x
  | i + 1 => cipher rk (xorBytes (chainFrom rk x S i) (streamBlock S i))

/-- From the zero block it is the chain of R100. -/
theorem chainFrom_zeroBlock (rk : Schedule) (S : List Byte) (i : Nat) :
    chainFrom rk zeroBlock S i = cbcChain rk S i := by
  induction i with
  | zero => rfl
  | succ i ih => rw [chainFrom, cbcChain, ih]

@[simp] theorem streamBlock_get (S : List Byte) (i k : Nat) (h : k < 16) :
    (streamBlock S i)[k] = S.getD (16 * i + k) 0 := by simp [streamBlock]

/-- Bytes that arrive later do not change a complete block. -/
theorem streamBlock_append {S T : List Byte} {i : Nat} (h : 16 * (i + 1) ≤ S.length) :
    streamBlock (S ++ T) i = streamBlock S i := by
  refine Vector.ext fun k hk => ?_
  rw [streamBlock_get, streamBlock_get, List.getD_append _ _ _ _ (by omega)]

/-- Bytes that arrive later do not change the chain of complete blocks. -/
theorem chainFrom_append {rk : Schedule} {x : Block} {S T : List Byte} {i : Nat} (h : 16 * i ≤ S.length) :
    chainFrom rk x (S ++ T) i = chainFrom rk x S i := by
  induction i with
  | zero => rfl
  | succ i ih => rw [chainFrom, chainFrom, ih (by omega), streamBlock_append h]

/-! ### The invariant of `Absorb` -/

/-- The context holds the stream `S`, of which nothing was chained when the accumulator was `x`: X is the chain of the blocks
before the last, BLEN the length of the last block and BUF its bytes (R100). -/
structure HoldsStream (x : Block) (S : List Byte) (m : MacContext) : Prop where
  x_eq : m.x = chainFrom m.rk x S (chainedBlocks S)
  blen_eq : m.blen.val = S.length - 16 * chainedBlocks S
  buf_eq (i : Fin 16) : i.val < m.blen.val → m.buf[i] = S.getD (16 * chainedBlocks S + i.val) 0

/-- The bytes in BUF that have not been chained (R24). -/
def bufferedBytes (m : MacContext) : List Byte := m.buf.toList.take m.blen.val

@[simp] theorem bufferedBytes_length (m : MacContext) : (bufferedBytes m).length = m.blen.val := by
  simp [bufferedBytes, Nat.le_of_lt_succ m.blen.isLt]

theorem bufferedBytes_getD {m : MacContext} {i : Fin 16} (h : i.val < m.blen.val) :
    (bufferedBytes m).getD i.val 0 = m.buf[i] := by
  simp [bufferedBytes, h]

theorem chainedBlocks_bufferedBytes (m : MacContext) : chainedBlocks (bufferedBytes m) = 0 := by
  have := m.blen.isLt
  rw [chainedBlocks, bufferedBytes_length]
  omega

/-- Every context holds what it has buffered. -/
theorem holdsStream_bufferedBytes (m : MacContext) : HoldsStream m.x (bufferedBytes m) m where
  x_eq := by rw [chainedBlocks_bufferedBytes, chainFrom]
  blen_eq := by rw [chainedBlocks_bufferedBytes, bufferedBytes_length]; rfl
  buf_eq i h := by rw [chainedBlocks_bufferedBytes, Nat.mul_zero, Nat.zero_add, bufferedBytes_getD h]

section
variable {x : Block} {S : List Byte} {m : MacContext}

/-- A full BUF is the last block of the stream. -/
theorem HoldsStream.buf_eq_streamBlock (h : HoldsStream x S m) (hfull : m.blen.val = 16) :
    m.buf = streamBlock S (chainedBlocks S) :=
  Vector.ext fun i hi => by
    rw [streamBlock_get]
    exact h.buf_eq ⟨i, hi⟩ (hi.trans_eq hfull.symm)

/-- `Absorb` of a byte keeps the invariant when BUF is full: the byte starts a new block (R92). -/
theorem HoldsStream.absorb_of_full (h : HoldsStream x S m) (hfull : m.blen.val = 16) (b : Byte) :
    HoldsStream x (S ++ [b]) (absorb m b) := by
  have hlen : S.length = 16 * (chainedBlocks S + 1) := by
    have := h.blen_eq
    unfold chainedBlocks at this ⊢
    omega
  have hq : chainedBlocks (S ++ [b]) = chainedBlocks S + 1 := by
    rw [chainedBlocks, List.length_append, List.length_singleton, hlen, Nat.add_sub_cancel,
      Nat.mul_div_cancel_left _ (by decide)]
  rw [absorb_full (Fin.ext hfull)]
  constructor
  · rw [hq, chainFrom, chainFrom_append (by omega), streamBlock_append (by omega), ← h.x_eq,
      h.buf_eq_streamBlock hfull]
  · simp [hq, hlen]
  · intro i hi
    obtain rfl : i = 0 := Fin.ext (Nat.lt_one_iff.1 hi)
    simp [hq, ← hlen]

/-- `Absorb` of a byte keeps the invariant when BUF has room: the byte joins the last block (R92). -/
theorem HoldsStream.absorb_of_room (h : HoldsStream x S m) (hroom : m.blen.val < 16) (b : Byte) :
    HoldsStream x (S ++ [b]) (absorb m b) := by
  have hblen := h.blen_eq
  have hq : chainedBlocks (S ++ [b]) = chainedBlocks S := by
    unfold chainedBlocks at hblen ⊢
    rw [List.length_append, List.length_singleton]
    omega
  have hle : 16 * chainedBlocks S ≤ S.length := by unfold chainedBlocks; omega
  have hpos : 16 * chainedBlocks S + m.blen.val = S.length := by omega
  rw [absorb_room hroom]
  constructor
  · rw [hq, chainFrom_append hle]
    exact h.x_eq
  · rw [hq, List.length_append, List.length_singleton]
    show m.blen.val + 1 = _
    omega
  · intro i hi
    rw [hq]
    obtain hlt | heq := Nat.lt_succ_iff_lt_or_eq.1 hi
    · have hne : m.blen.val ≠ i.val := Nat.ne_of_gt hlt
      rw [List.getD_append _ _ _ _ (by omega), ← h.buf_eq i hlt]
      simp [hne]
    · simp [heq, hpos]

theorem HoldsStream.absorb (h : HoldsStream x S m) (b : Byte) : HoldsStream x (S ++ [b]) (absorb m b) := by
  obtain hroom | hfull := Nat.lt_succ_iff_lt_or_eq.1 m.blen.isLt
  · exact h.absorb_of_room hroom b
  · exact h.absorb_of_full hfull b

/-- A context that holds a stream holds its extension after the bytes of the extension. -/
theorem HoldsStream.absorbAll (h : HoldsStream x S m) (T : List Byte) :
    HoldsStream x (S ++ T) (absorbAll m T) := by
  induction T generalizing S m with
  | nil => rwa [List.append_nil]
  | cons b T ih =>
    rw [List.append_cons]
    exact ih (h.absorb b)

end

/-- What an empty computation holds after it has absorbed a stream (R100). -/
theorem holdsStream_absorbAll {m : MacContext} (hx : m.x = zeroBlock) (hblen : m.blen = 0) (S : List Byte) :
    HoldsStream zeroBlock S (absorbAll m S) := by
  have hnil : bufferedBytes m = [] := List.length_eq_zero_iff.1 (by rw [bufferedBytes_length, hblen]; rfl)
  have h := (holdsStream_bufferedBytes m).absorbAll S
  rwa [hx, hnil] at h

/-- BLEN tells where the stream ends in its last block (R101). -/
theorem HoldsStream.blen_of_length {x : Block} {S : List Byte} {m : MacContext} (h : HoldsStream x S m) :
    (0 < S.length → 1 ≤ m.blen.val) ∧ (m.blen.val = 16 ↔ 0 < S.length ∧ S.length % 16 = 0) ∧
      (m.blen.val ≠ 16 → m.blen.val = S.length % 16) := by
  have hblen := h.blen_eq
  unfold chainedBlocks at hblen
  omega

/-- Settles O45 by the invariant of `Absorb`, from the zero accumulator. -/
theorem absorbedStreamIsCbcChain : Obligations.AbsorbedStreamIsCbcChain := by
  intro m S hx hblen
  have h := holdsStream_absorbAll hx hblen S
  refine ⟨?_, h.blen_eq, h.buf_eq, h.blen_of_length⟩
  rw [h.x_eq, absorbAll_rk, chainFrom_zeroBlock]
  rfl

/-! ### One MAC_INPUT -/

/-- Where at most 16 bytes join a buffer, one block is chained if they overfill it, and none otherwise. -/
theorem chainedBlocks_bufferedBytes_append {m : MacContext} {T : List Byte} (hT : T.length ≤ 16) :
    chainedBlocks (bufferedBytes m ++ T) = 0 ∨
      chainedBlocks (bufferedBytes m ++ T) = 1 ∧ 16 < m.blen.val + T.length := by
  have := m.blen.isLt
  rw [chainedBlocks, List.length_append, bufferedBytes_length]
  omega

@[simp] theorem inputContext_x (m : MacContext) (d : Block) (len : Nat) :
    (inputContext m d len).x = (absorbAll m (inputBytes d len)).x := by rw [inputContext_eq]

/-- The block that bytes of DATA complete holds the buffered bytes and then those of DATA. -/
theorem completedBlock_get (m : MacContext) (d : Block) {len : Nat} (hlen : 16 < m.blen.val + len) (i : Fin 16) :
    (streamBlock (bufferedBytes m ++ inputBytes d len) 0)[i] =
      if i.val < m.blen.val then m.buf[i] else d.toList.getD (i.val - m.blen.val) 0 := by
  rw [Fin.getElem_fin, streamBlock_get, Nat.mul_zero, Nat.zero_add]
  split
  · next hi => rw [List.getD_append _ _ _ _ (by simpa using hi), bufferedBytes_getD hi]
  · next hi =>
    have hin : i.val - m.blen.val < len := by omega
    rw [List.getD_append_right _ _ _ _ (by simpa using hi), bufferedBytes_length]
    simp [inputBytes, hin]

/-- Settles O31: the bytes of BUF and of one MAC_INPUT are a stream of which at most one block is chained. -/
theorem macInputChainsAtMostOneBlock : Obligations.MacInputChainsAtMostOneBlock := by
  intro len s t h
  obtain ⟨hok, rfl⟩ | ⟨c, _, _, rfl⟩ := exec_eq_next h
  · have hlen := (firstError_macInput_ok.1 hok).1
    have hbytes : (inputBytes s.data len).length = len := by simp [inputBytes, hlen]
    have hx := ((holdsStream_bufferedBytes s.macCtx).absorbAll (inputBytes s.data len)).x_eq
    rw [← inputContext_x, absorbAll_rk] at hx
    obtain hq | ⟨hq, hover⟩ := chainedBlocks_bufferedBytes_append (m := s.macCtx) (hbytes.trans_le hlen) <;>
      rw [hq] at hx
    · exact .inl hx
    · exact .inr ⟨_, hx, completedBlock_get s.macCtx s.data (hbytes ▸ hover)⟩
  · exact .inl rfl

end Sys2Proof.Machine
end

section
/-! PROOFS. A byte stream fed in chunks (30_encoding.md R61; 42_cmac.md R99): only the stream matters, and the tag of an empty
computation after it is its AES-CMAC (R102, R103). -/

namespace Sys2Proof.Machine

/-! ### Feeding a stream -/

/-- The MAC context after a stream has been fed, however it is split (R96, R99). -/
def streamContext (m : MacContext) (S : List Byte) : MacContext :=
  { absorbAll m S with mstate := if S = [] then m.mstate else .accumulating }

theorem absorbAll_with_mstate (m : MacContext) (z : MacState) (S : List Byte) :
    absorbAll { m with mstate := z } S = { absorbAll m S with mstate := z } := by
  induction S generalizing m with
  | nil => rfl
  | cons b S ih => rw [absorbAll_cons, absorb_with_mstate, ih, absorbAll_cons]

/-- Feeding one stream after another is feeding the two as one (R99). -/
theorem streamContext_append (m : MacContext) (S T : List Byte) :
    streamContext (streamContext m S) T = streamContext m (S ++ T) := by
  unfold streamContext
  rw [absorbAll_with_mstate, ← absorbAll_append]
  cases T with
  | nil => simp
  | cons b T => simp

theorem TakesInput.streamContext {m : MacContext} (hm : TakesInput m) (S : List Byte) :
    TakesInput (streamContext m S) := by
  cases S with
  | nil => exact hm
  | cons b S => exact .inr rfl

/-- MAC_INPUT takes from DATA the chunk that was put there (R61). -/
theorem inputBytes_loadChunk {k : List Byte} (hk : k.length ≤ 16) (d : Block) :
    inputBytes (loadChunk k d) k.length = k := by
  refine List.ext_getElem (by simp [inputBytes, hk]) fun i _ hi => ?_
  simp [inputBytes, loadChunk, hi]

theorem inputContext_loadChunk {k : List Byte} (hk : k.length ≤ 16) (m : MacContext) (d : Block) :
    inputContext m (loadChunk k d) k.length = streamContext m k := by
  simp only [inputContext_eq, inputBytes_loadChunk hk, List.length_eq_zero_iff]
  rfl

/-- Feeding a chunk to an engine that takes input appends it to the stream (R61, R96). -/
theorem feedChunk_eq {k : List Byte} {s : State} (hk : k.length ≤ 16) (hm : TakesInput s.macCtx) :
    ∃ t, feedChunk k s = .next t ∧ t.macCtx = streamContext s.macCtx k := by
  rw [← State.setData_macCtx s (loadChunk k s.data)] at hm
  refine ⟨_, exec_macInput_of_takesInput hk hm, ?_⟩
  rw [State.succeed_macCtx, State.setMacCtx_macCtx, State.setData_macCtx, State.setData_data, inputContext_loadChunk hk]

/-- Feeding chunks to an engine that takes input appends their concatenation to the stream (R99). -/
theorem feedChunks_eq {c : List (List Byte)} {s : State} (hc : ∀ k ∈ c, k.length ≤ 16) (hm : TakesInput s.macCtx) :
    ∃ t, feedChunks c s = .next t ∧ t.macCtx = streamContext s.macCtx c.flatten := by
  induction c generalizing s with
  | nil => exact ⟨s, rfl, rfl⟩
  | cons k c ih =>
    rw [List.forall_mem_cons] at hc
    obtain ⟨t, hfeed, ht⟩ := feedChunk_eq hc.1 hm
    obtain ⟨u, hrest, hu⟩ := ih hc.2 (s := t) (ht ▸ hm.streamContext k)
    refine ⟨u, by rw [feedChunks, hfeed]; exact hrest, ?_⟩
    rw [hu, ht, streamContext_append, List.flatten_cons]

/-- Settles O46: both splits feed the same stream, and the tag is of the context alone. -/
theorem chunkingDoesNotMatter : Obligations.ChunkingDoesNotMatter := by
  intro c d s hc hd hflat hm
  obtain ⟨t, hfeedt, ht⟩ := feedChunks_eq hc hm
  obtain ⟨u, hfeedu, hu⟩ := feedChunks_eq hd hm
  rw [← hflat] at hu
  have hready := TakesInput.streamContext hm c.flatten
  refine ⟨t, u, _, _, hfeedt, hfeedu, ht.trans hu.symm, exec_macFinal_of_takesInput (ht ▸ hready),
    exec_macFinal_of_takesInput (hu ▸ hready), ?_⟩
  show tag t.macCtx = tag u.macCtx
  rw [ht, hu]

/-! ### The tag of a stream -/

/-- The tag of a context that holds a stream from the zero accumulator, under the schedule of a key, is the AES-CMAC of the
stream under that key (R94, R100, R102). -/
theorem HoldsStream.tag_eq_aesCmac {S : List Byte} {m : MacContext} {K : Block} (h : HoldsStream zeroBlock S m)
    (hrk : m.rk = keyExpansion K) : tag m = aesCmac K S := by
  obtain ⟨-, hfull, hroom⟩ := h.blen_of_length
  rw [tag_eq, h.x_eq, chainFrom_zeroBlock, aesCmac, ← hrk]
  by_cases h16 : m.blen.val = 16
  · rw [if_pos h16, if_pos (hfull.1 h16).symm, h.buf_eq_streamBlock h16]
  · have hpad : pad m.buf m.blen.val = pad (streamBlock S (chainedBlocks S)) m.blen.val :=
      pad_congr fun i hi => (h.buf_eq i hi).trans (streamBlock_get S _ i.val i.isLt).symm
    rw [if_neg h16, if_neg (fun hS => h16 (hfull.2 hS.symm)), hpad, hroom h16]

/-- A whole computation from its start under the schedule of a key: the chunks are taken, and MAC_FINAL writes the AES-CMAC of
their concatenation (R99, R102). -/
theorem run_of_restartMac {c : List (List Byte)} {s : State} {m : MacContext} {K : Block}
    (hc : ∀ k ∈ c, k.length ≤ 16) (hs : s.macCtx = restartMac m) (hrk : m.rk = keyExpansion K) :
    ∃ t u, feedChunks c s = .next t ∧ exec .macFinal t = .next u ∧ u.data = aesCmac K c.flatten ∧ u.err = .ok ∧
      t.macCtx.mstate = (if c.flatten = [] then .fresh else .accumulating) ∧ u.macCtx.mstate = .finalized := by
  have hm : TakesInput s.macCtx := .inl (by rw [hs, restartMac_mstate])
  obtain ⟨t, hfeed, ht⟩ := feedChunks_eq hc hm
  have hready : TakesInput t.macCtx := ht ▸ hm.streamContext _
  rw [hs] at ht
  have htag : tag t.macCtx = aesCmac K c.flatten := by
    rw [ht, streamContext, tag_with_mstate]
    exact (holdsStream_absorbAll rfl rfl _).tag_eq_aesCmac ((absorbAll_rk ..).trans hrk)
  exact ⟨t, _, hfeed, exec_macFinal_of_takesInput hready, htag, rfl, by rw [ht]; rfl, rfl⟩

/-- Settles O47: MAC_INIT starts a computation under the schedule of KEY. -/
theorem tagIsAesCmacOfTheStream : Obligations.TagIsAesCmacOfTheStream := by
  intro c s hc
  obtain ⟨u, v, hfeed, hfinal, hdata, herr, -, hmstate⟩ :=
    run_of_restartMac (s := (commandEffect .macInit s).succeed) (K := s.key) hc rfl rfl
  exact ⟨_, u, v, execMacInit_eq s, hfeed, hfinal, hdata, herr, hmstate⟩

/-- Settles O48: both start a computation under the schedule of the same key. -/
theorem macResetLikeMacInit : Obligations.MacResetLikeMacInit := by
  intro c s s' hc hkeyed hrk
  obtain ⟨u, v, hfeed, hfinal, hdata, -, hmid, hend⟩ :=
    run_of_restartMac (s := (commandEffect .macReset s).succeed) hc rfl hrk
  obtain ⟨u', v', hfeed', hfinal', hdata', -, hmid', hend'⟩ :=
    run_of_restartMac (s := (commandEffect .macInit s').succeed) (K := s'.key) hc rfl rfl
  exact ⟨_, u, v, _, u', v', exec_macReset_of_keyed hkeyed, hfeed, hfinal, execMacInit_eq s', hfeed', hfinal',
    hdata.trans hdata'.symm, hmid.trans hmid'.symm, hend.trans hend'.symm⟩

end Sys2Proof.Machine
end

section
/-! PROOFS. Failed commands: what they leave unchanged, the error they report and its causes (60_exceptions.md R107 to R117). -/

namespace Sys2Proof.Machine

/-! ### The step on an illegal word -/

/-- Settles O7: the step takes the CMD write off the queue, and the write fails with ILLEGAL and completes. -/
theorem stepOnIllegalWord : Obligations.StepOnIllegalWord := by
  intro s m w e rest hs hw hp
  calc step s = completeWrite m (command w (s.setPending rest)) :=
        (step_of_pending hp).trans (busAccess_write_reg m .cmd w hs)
    _ = .next (((s.setPending rest).failWith .illegal).complete m none) := by
        rw [command_of_illegal hw, completeWrite]

/-! ### The frame of a failed command -/

/-- A failed command changes nothing but ERR and ESTICKY (R114). -/
theorem exec_eq_failWith {i : Instr} {s t : State} (h : exec i s = .next t) (hne : t.err ≠ .ok) :
    t = s.failWith t.err := by
  obtain ⟨_, rfl⟩ | ⟨_, _, _, rfl⟩ := exec_eq_next h
  · exact absurd rfl hne
  · rfl

theorem command_eq_failWith {w : Word} {s t : State} (h : command w s = .next t) (hne : t.err ≠ .ok) :
    t = s.failWith t.err := by
  obtain ⟨i, _, hc⟩ | ⟨_, _, hc⟩ := command_cases w s
  · exact exec_eq_failWith (hc.symm.trans h) hne
  · cases hc.symm.trans h
    rfl

/-- Settles O18: every command and every word completes, and its end is one of the two that R114 and R115 give. -/
theorem failureChangesOnlyStatus : Obligations.FailureChangesOnlyStatus := by
  refine ⟨fun i s => ?_, fun w s => ?_⟩
  · obtain ⟨t, h⟩ := exec_completes i s
    exact ⟨t, h, exec_eq_failWith h, (exec_esticky h).2⟩
  · obtain ⟨t, h⟩ := command_completes w s
    exact ⟨t, h, command_eq_failWith h, (command_esticky h).2⟩

/-! ### The error reported -/

/-- Settles O19: a legal word reports the first check of its command, an illegal one ILLEGAL. -/
theorem checksFollowTheTable : Obligations.ChecksFollowTheTable := by
  intro w s
  cases hw : decode w with
  | ok i =>
    obtain ⟨t, h⟩ := exec_completes i s
    exact ⟨t, (command_of_decode hw s).trans h, exec_err h⟩
  | error e => exact ⟨s.failWith .illegal, command_of_illegal hw s, rfl⟩

/-! ### The causes of each error -/

/-- When each check is the first that applies. ILLEGAL is a verdict of the decoder, never a check of a command (R107 to
R110). -/
theorem firstError_causes (i : Instr) (s : State) :
    (firstError i s = .capacity ↔ ∃ len, i = .macInput len ∧ 16 < len) ∧
      (firstError i s = .misuse ↔
        s.macCtx.mstate = .finalized ∧ (i = .macFinal ∨ ∃ len, i = .macInput len ∧ len ≤ 16)) ∧
      (firstError i s = .noKey ↔
        (s.cipherCtx.valid = false ∧ (i = .enc ∨ i = .dec)) ∨
          (s.macCtx.mstate = .unkeyed ∧ (i = .macFinal ∨ i = .macReset ∨ ∃ len, i = .macInput len ∧ len ≤ 16))) ∧
      firstError i s ≠ .illegal := by
  cases i with
  | keyLoad | macInit => simp [firstError]
  | enc | dec => cases hv : s.cipherCtx.valid <;> simp [firstError, hv]
  | macInput len =>
    obtain hlen | hlen := Nat.lt_or_ge 16 len
    · simp [firstError, hlen]
    · cases hm : s.macCtx.mstate <;> simp [firstError, hm, hlen, Nat.not_lt.2 hlen]
  | macFinal | macReset => cases hm : s.macCtx.mstate <;> simp [firstError, hm]

/-- Settles O20: ERR is the first check that applies, and a command that fails keeps the MAC context. -/
theorem errorCausesExact : Obligations.ErrorCausesExact := by
  intro i s t h
  have hkeeps : t.err = .capacity → t.macCtx = s.macCtx := fun hcap => by
    rw [exec_eq_failWith h (hcap ▸ nofun), State.failWith_macCtx]
  obtain ⟨hcapacity, hmisuse, hnoKey, hillegal⟩ := firstError_causes i s
  rw [exec_err h] at hkeeps ⊢
  exact ⟨hcapacity, hkeeps, hmisuse, hnoKey, hillegal⟩

end Sys2Proof.Machine
end

section
/-! PROOFS. The master of an access decides only whose the completion is (20_memory.md R47; 60_exceptions.md R121). -/

namespace Sys2Proof.Machine

theorem command_port {w : Word} {s t : State} (h : command w s = .next t) : t.port = s.port := by
  obtain ⟨i, _, hc⟩ | ⟨_, _, hc⟩ := command_cases w s
  · exact exec_port (hc.symm.trans h)
  · cases hc.symm.trans h
    rfl

/-- A write of a register does not touch the port: its completion is recorded afterwards (R41). -/
theorem writeReg_port {r : Reg} {v : Word} {s t : State} (h : writeReg r v s = .next t) : t.port = s.port := by
  cases r with
  | cmd => exact command_port h
  | status =>
    obtain rfl := Host.Outcome.next.inj h
    rw [writeStatus_eq]
  | key j | data j =>
    obtain rfl := Host.Outcome.next.inj h
    rfl

/-- An access that completes has an effect that keeps the port and a value for its completion, both the same for every
master (R47). -/
theorem busAccess_of_any_master {a : Access} {s t : State} (h : busAccess a s = .next t) :
    ∃ (u : State) (v : Option Word), u.port = s.port ∧
      ∀ n, busAccess { a with master := n } s = .next (u.complete n v) := by
  obtain ⟨hs, r, ha, ⟨hk, _⟩ | ⟨v, u, hk, hu, _⟩⟩ := busAccess_eq_next h
  · exact ⟨s, some (readReg r s), rfl, fun n => busAccess_read (a := { a with master := n }) hs ha hk⟩
  · refine ⟨u, none, writeReg_port hu, fun n => ?_⟩
    rw [busAccess_write (a := { a with master := n }) hs ha hk, hu, completeWrite]

/-- Settles O55: the same effect and value, completed for the one master or for the other. -/
theorem mastersAreEqual : Obligations.MastersAreEqual := by
  intro a n s t h
  obtain ⟨u, v, hport, hall⟩ := busAccess_of_any_master h
  obtain rfl : t = u.complete a.master v := Host.Outcome.next.inj (h.symm.trans (hall a.master))
  refine ⟨v, ?_, ?_⟩
  · rw [State.complete_port, hport]
  · rw [hall n, ← hport]
    rfl

end Sys2Proof.Machine
end

section
/-! PROOFS. The reset input and the idle block (70_reset_and_hazards.md R125 to R130): what asserting and releasing reset does,
the values after it, and the step with nothing pending. -/

namespace Sys2Proof.Machine

/-! ### The idle block -/

/-- Settles O8: the port takes no action, and the block has no step of its own. -/
theorem idleBlockKeepsItsState : Obligations.IdleBlockKeepsItsState := by
  intro s hp
  obtain ⟨_, hs⟩ | ⟨x, rest, hp', _⟩ := step_cases s
  · exact hs
  · cases hp.symm.trans hp'

/-! ### The reset input -/

/-- While reset is asserted an access gets no response (R130). -/
theorem busAccess_noResponse {s : State} (hs : s.inReset = true) (a : Access) :
    busAccess a s = .fault .noResponseInReset := by simp [busAccess, hs]

theorem hostAction_assert (p : Option Access) (s : State) :
    hostAction (.resetAssert p) s = .next (s.hardwareReset true) := rfl

theorem hostAction_release_of_asserted {s : State} (hs : s.inReset = true) :
    hostAction .resetRelease s = .next (s.hardwareReset false) := by simp [hostAction, hs]

theorem hostAction_release_of_released {s : State} (hs : s.inReset = false) :
    hostAction .resetRelease s = .next s := by simp [hostAction, hs]

/-! ### The values after reset -/

theorem holdsResetValues_hardwareReset (s : State) (asserted : Bool) : HoldsResetValues (s.hardwareReset asserted) :=
  ⟨rfl, rfl, rfl, rfl, rfl, rfl⟩

/-- STATUS is 0 wherever the state holds its reset values (R126). -/
theorem HoldsResetValues.statusWord_eq {s : State} (h : HoldsResetValues s) : statusWord s = 0 := by
  obtain ⟨_, _, herr, hsticky, hvalid, hmstate⟩ := h
  rw [statusWord, herr, hsticky, hvalid, hmstate]
  decide

/-- Settles O50: the state after reset is what a hardware reset leaves of it, and that meets the invariant. -/
theorem resetMeetsInvariant : Obligations.ResetMeetsInvariant := inv_hardwareReset State.reset false

/-- Settles O52: the fields by the definition of the reset state, and STATUS by them. -/
theorem resetValuesOfTheTable : Obligations.ResetValuesOfTheTable := by
  have h : HoldsResetValues State.reset := holdsResetValues_hardwareReset State.reset false
  have ⟨hkey, hdata, herr, hsticky, hvalid, hmstate⟩ := h
  exact ⟨hkey, hdata, herr, hsticky, hvalid, hmstate, h.statusWord_eq⟩

/-- Settles O53: both actions are a hardware reset, which keeps the port and leaves no key to ENC. -/
theorem hardwareResetRestoresEverything : Obligations.HardwareResetRestoresEverything := by
  intro s p
  have hvalues := holdsResetValues_hardwareReset (s.hardwareReset true) false
  have henc := exec_of_firstError (c := .noKey) nofun
    (firstError_enc_of_invalid (s := (s.hardwareReset true).hardwareReset false) rfl)
  exact ⟨_, _, hostAction_assert p s, hostAction_release_of_asserted rfl, rfl, busAccess_noResponse rfl, rfl, hvalues,
    hvalues.statusWord_eq, rfl, _, henc, rfl, rfl⟩

end Sys2Proof.Machine
end

section
/-! PROOFS. The state a host cannot see (10_state.md R29, R30; 70_reset_and_hazards.md R127): operation by operation, states
that differ only there are left differing only there. -/

namespace Sys2Proof.Machine

/-! ### MAC contexts -/

/-- Two contexts are at the same point of one computation, as far as `Absorb` and the tag can read (R92 to R94). -/
structure SameComputation (m n : MacContext) : Prop where
  rk_eq : m.rk = n.rk
  x_eq : m.x = n.x
  blen_eq : m.blen = n.blen
  buf_eq (i : Fin 16) : i.val < m.blen.val → m.buf[i] = n.buf[i]

section
variable {m n : MacContext}

theorem MacAlike.sameComputation (h : MacAlike m n) (hm : TakesInput m) : SameComputation m n :=
  have ⟨_, hrk, hrun⟩ := h
  have ⟨hx, hblen, hbuf⟩ := hrun hm
  ⟨hrk (takesInput_iff.1 hm).1, hx, hblen, hbuf⟩

theorem SameComputation.macAlike (h : SameComputation m n) (hmstate : m.mstate = n.mstate) : MacAlike m n :=
  ⟨hmstate, fun _ => h.rk_eq, fun _ => ⟨h.x_eq, h.blen_eq, h.buf_eq⟩⟩

theorem SameComputation.bufferedBytes_eq (h : SameComputation m n) : bufferedBytes m = bufferedBytes n :=
  calc bufferedBytes m = inputBytes n.buf m.blen.val := inputBytes_congr h.buf_eq
    _ = bufferedBytes n := by rw [h.blen_eq]; rfl

/-- The stream a context holds, and the accumulator it started from, fix what a rule can read. -/
theorem sameComputation_of_holdsStream {x : Block} {S : List Byte} (hm : HoldsStream x S m) (hn : HoldsStream x S n)
    (hrk : m.rk = n.rk) : SameComputation m n := by
  have hblen : m.blen = n.blen := Fin.ext (hm.blen_eq.trans hn.blen_eq.symm)
  refine ⟨hrk, ?_, hblen, fun i hi => ?_⟩
  · rw [hm.x_eq, hn.x_eq, hrk]
  · rw [hm.buf_eq i hi, hn.buf_eq i (hblen ▸ hi)]

/-- Both contexts hold the same stream before the bytes arrive, and so after them (R92). -/
theorem SameComputation.absorbAll (h : SameComputation m n) (T : List Byte) :
    SameComputation (absorbAll m T) (absorbAll n T) := by
  have hm := (holdsStream_bufferedBytes m).absorbAll T
  have hn := (holdsStream_bufferedBytes n).absorbAll T
  rw [← h.x_eq, ← h.bufferedBytes_eq] at hn
  exact sameComputation_of_holdsStream hm hn (by simpa using h.rk_eq)

/-- The tag reads BUF below BLEN alone: the whole of it when full, and its padded bytes otherwise (R93, R94). -/
theorem SameComputation.sameTag (h : SameComputation m n) : tag m = tag n := by
  rw [tag_eq, tag_eq n, ← h.rk_eq, ← h.x_eq, ← h.blen_eq]
  by_cases hfull : m.blen.val = 16
  · have hbuf : m.buf = n.buf := Vector.ext fun i hi => h.buf_eq ⟨i, hi⟩ (hi.trans_eq hfull.symm)
    rw [hbuf]
  · rw [if_neg hfull, if_neg hfull, pad_congr h.buf_eq]

/-- MAC_INIT and MAC_RESET leave nothing of the old computation (R95, R98). -/
theorem macAlike_restartMac (hrk : m.rk = n.rk) : MacAlike (restartMac m) (restartMac n) :=
  ⟨rfl, fun _ => hrk, fun _ => ⟨rfl, rfl, fun _ _ => rfl⟩⟩

/-- In Finalized only the schedule is left to read (R97). -/
theorem macAlike_finalized (hrk : m.rk = n.rk) :
    MacAlike { m with mstate := .finalized } { n with mstate := .finalized } :=
  ⟨rfl, fun _ => hrk, by simp⟩

theorem MacAlike.inputContext (h : MacAlike m n) (hm : TakesInput m) (d : Block) (len : Nat) :
    MacAlike (inputContext m d len) (inputContext n d len) := by
  obtain ⟨hrk, hx, hblen, hbuf⟩ := (h.sameComputation hm).absorbAll (inputBytes d len)
  have ⟨hmstate, _⟩ := h
  rw [inputContext_eq, inputContext_eq, hmstate]
  exact SameComputation.macAlike ⟨hrk, hx, hblen, hbuf⟩ rfl

end

/-! ### States and outcomes -/

section
variable {s t : State} (h : Indistinguishable s t)
include h

theorem Indistinguishable.key_eq : s.key = t.key := h.1

theorem Indistinguishable.data_eq : s.data = t.data :=
  have ⟨_, hdata, _⟩ := h
  hdata

theorem Indistinguishable.cipherAlike : CipherAlike s.cipherCtx t.cipherCtx :=
  have ⟨_, _, _, _, hc, _⟩ := h
  hc

theorem Indistinguishable.macAlike : MacAlike s.macCtx t.macCtx :=
  have ⟨_, _, _, _, _, hm, _⟩ := h
  hm

theorem Indistinguishable.inReset_eq : s.inReset = t.inReset :=
  have ⟨_, _, _, _, _, _, hr, _⟩ := h
  hr

theorem Indistinguishable.port_eq : s.port = t.port :=
  have ⟨_, _, _, _, _, _, _, hp⟩ := h
  hp

/-- STATUS shows nothing of what the states differ in (R18, R30). -/
theorem Indistinguishable.statusWord_eq : statusWord s = statusWord t := by
  obtain ⟨_, _, herr, hsticky, ⟨hvalid, _⟩, ⟨hmstate, _⟩, _⟩ := h
  simp only [statusWord, herr, hsticky, hvalid, hmstate]

theorem Indistinguishable.readReg_eq (r : Reg) : readReg r s = readReg r t :=
  readsRevealDataAndStatusOnly r s t h.data_eq h.statusWord_eq

/-- The checks look at CKEY_VALID and MSTATE alone (R112). -/
theorem Indistinguishable.firstError_eq (i : Instr) : firstError i s = firstError i t := by
  have ⟨hvalid, _⟩ := h.cipherAlike
  have ⟨hmstate, _⟩ := h.macAlike
  cases i <;> simp only [firstError, hvalid, hmstate]

theorem Indistinguishable.setKey {k l : Block} (hk : k = l) : Indistinguishable (s.setKey k) (t.setKey l) :=
  have ⟨_, hrest⟩ := h
  ⟨hk, hrest⟩

theorem Indistinguishable.setData {d e : Block} (hd : d = e) : Indistinguishable (s.setData d) (t.setData e) :=
  have ⟨hkey, _, hrest⟩ := h
  ⟨hkey, hd, hrest⟩

theorem Indistinguishable.setCipherCtx {c d : CipherContext} (hc : CipherAlike c d) :
    Indistinguishable (s.setCipherCtx c) (t.setCipherCtx d) :=
  have ⟨hkey, hdata, herr, hsticky, _, hrest⟩ := h
  ⟨hkey, hdata, herr, hsticky, hc, hrest⟩

theorem Indistinguishable.setMacCtx {m n : MacContext} (hm : MacAlike m n) :
    Indistinguishable (s.setMacCtx m) (t.setMacCtx n) :=
  have ⟨hkey, hdata, herr, hsticky, hc, _, hrest⟩ := h
  ⟨hkey, hdata, herr, hsticky, hc, hm, hrest⟩

theorem Indistinguishable.succeed : Indistinguishable s.succeed t.succeed :=
  have ⟨hkey, hdata, _, hrest⟩ := h
  ⟨hkey, hdata, rfl, hrest⟩

theorem Indistinguishable.failWith (c : ErrCode) : Indistinguishable (s.failWith c) (t.failWith c) :=
  have ⟨hkey, hdata, _, _, hrest⟩ := h
  ⟨hkey, hdata, rfl, rfl, hrest⟩

theorem Indistinguishable.setPending (l : List HostAction) : Indistinguishable (s.setPending l) (t.setPending l) :=
  have ⟨hkey, hdata, herr, hsticky, hc, hm, hr, hp⟩ := h
  ⟨hkey, hdata, herr, hsticky, hc, hm, hr, by simp [hp]⟩

theorem Indistinguishable.complete (n : Nat) (v : Option Word) :
    Indistinguishable (s.complete n v) (t.complete n v) :=
  have ⟨hkey, hdata, herr, hsticky, hc, hm, hr, hp⟩ := h
  ⟨hkey, hdata, herr, hsticky, hc, hm, hr, by simp [hp]⟩

theorem Indistinguishable.hardwareReset (asserted : Bool) :
    Indistinguishable (s.hardwareReset asserted) (t.hardwareReset asserted) :=
  ⟨rfl, rfl, rfl, rfl, ⟨rfl, fun _ => rfl⟩, ⟨rfl, fun _ => rfl, fun _ => ⟨rfl, rfl, fun _ _ => rfl⟩⟩, rfl, h.port_eq⟩

theorem Indistinguishable.writeStatus (v : Word) : Indistinguishable (writeStatus v s) (writeStatus v t) := by
  rw [writeStatus_eq, writeStatus_eq]
  have ⟨hkey, hdata, herr, hsticky, hrest⟩ := h
  exact ⟨hkey, hdata, herr, by simp only [hsticky], hrest⟩

/-! ### Commands -/

/-- A command that passes its checks reads no schedule that is not loaded, no accumulator outside a computation and no byte of
BUF at or beyond BLEN (R127, R29). -/
theorem Indistinguishable.commandEffect {i : Instr} (hok : firstError i s = .ok) :
    Indistinguishable (commandEffect i s) (commandEffect i t) := by
  have ⟨_, hloaded⟩ := h.cipherAlike
  have ⟨_, hbound, _⟩ := h.macAlike
  cases i with
  | keyLoad => exact h.setCipherCtx ⟨rfl, fun _ => congrArg keyExpansion h.key_eq⟩
  | enc =>
    have hrk := hloaded (by simpa [firstError] using hok)
    exact h.setData (congrArg₂ cipher hrk h.data_eq)
  | dec =>
    have hrk := hloaded (by simpa [firstError] using hok)
    exact h.setData (congrArg₂ invCipher hrk h.data_eq)
  | macInit => exact h.setMacCtx (macAlike_restartMac (congrArg keyExpansion h.key_eq))
  | macInput len =>
    have hm := takesInput_iff.2 (firstError_macInput_ok.1 hok).2
    have hctx := h.macAlike.inputContext hm s.data len
    exact h.setMacCtx (h.data_eq ▸ hctx)
  | macFinal =>
    have hm := takesInput_iff.2 (firstError_macFinal_ok.1 hok)
    have hrun := h.macAlike.sameComputation hm
    exact (h.setData hrun.sameTag).setMacCtx (macAlike_finalized hrun.rk_eq)
  | macReset => exact h.setMacCtx (macAlike_restartMac (hbound (firstError_macReset_ok.1 hok)))

theorem Indistinguishable.exec_alike (i : Instr) : OutcomesAlike (exec i s) (exec i t) := by
  have herr := h.firstError_eq i
  by_cases hok : firstError i s = .ok
  · rw [exec_of_firstError_ok hok, exec_of_firstError_ok (herr ▸ hok)]
    exact (h.commandEffect hok).succeed
  · rw [exec_of_firstError hok rfl, exec_of_firstError hok herr.symm]
    exact h.failWith _

theorem Indistinguishable.command_alike (w : Word) : OutcomesAlike (command w s) (command w t) := by
  cases hw : decode w with
  | ok i =>
    rw [command_of_decode hw, command_of_decode hw]
    exact h.exec_alike i
  | error e =>
    rw [command_of_illegal hw, command_of_illegal hw]
    exact h.failWith .illegal

end

/-! ### The port -/

theorem OutcomesAlike.completeWrite {o p : Host.Outcome State Fault Refusal} (h : OutcomesAlike o p) (master : Nat) :
    OutcomesAlike (completeWrite master o) (completeWrite master p) :=
  match o, p, h with
  | .next _, .next _, h => Indistinguishable.complete h master none
  | .fault _, .fault _, h => h
  | .refused _, .refused _, h => h

section
variable {s t : State} (h : Indistinguishable s t)
include h

theorem Indistinguishable.writeReg_alike (r : Reg) (v : Word) : OutcomesAlike (writeReg r v s) (writeReg r v t) := by
  cases r with
  | cmd => exact h.command_alike v
  | status => exact h.writeStatus v
  | key j => exact h.setKey (congrArg (setWord · j v) h.key_eq)
  | data j => exact h.setData (congrArg (setWord · j v) h.data_eq)

/-- An access is answered by the reset input, the register it reaches and what it does there, of which the first two are the
same in both states (R39, R130). -/
theorem Indistinguishable.busAccess_alike (a : Access) : OutcomesAlike (busAccess a s) (busAccess a t) := by
  cases hs : s.inReset with
  | true =>
    rw [busAccess_noResponse hs, busAccess_noResponse (h.inReset_eq ▸ hs)]
    rfl
  | false =>
    have ht : t.inReset = false := h.inReset_eq ▸ hs
    cases ha : acceptedReg a with
    | none =>
      rw [busAccess_busError hs ha, busAccess_busError ht ha]
      rfl
    | some r =>
      cases hk : a.kind with
      | read =>
        rw [busAccess_read hs ha hk, busAccess_read ht ha hk, h.readReg_eq r]
        exact h.complete a.master _
      | write v =>
        rw [busAccess_write hs ha hk, busAccess_write ht ha hk]
        exact (h.writeReg_alike r v).completeWrite a.master

theorem Indistinguishable.hostAction_alike (x : HostAction) : OutcomesAlike (hostAction x s) (hostAction x t) := by
  cases x with
  | access a => exact h.busAccess_alike a
  | resetAssert p => exact h.hardwareReset true
  | resetRelease =>
    cases hs : s.inReset with
    | true =>
      rw [hostAction_release_of_asserted hs, hostAction_release_of_asserted (h.inReset_eq ▸ hs)]
      exact h.hardwareReset false
    | false =>
      rw [hostAction_release_of_released hs, hostAction_release_of_released (h.inReset_eq ▸ hs)]
      exact h

end

/-- Settles O51: both states have the same action pending, and every host action keeps them alike. -/
theorem hiddenStateIsUnobservable : Obligations.HiddenStateIsUnobservable := by
  intro s t h
  obtain ⟨hp, hs⟩ | ⟨x, rest, hp, hs⟩ := step_cases s
  · rw [hs, idleBlockKeepsItsState t (h.port_eq ▸ hp)]
    exact h
  · rw [hs, step_of_pending (h.port_eq ▸ hp)]
    exact (h.setPending rest).hostAction_alike x

end Sys2Proof.Machine
end
